-- ==== Sys2Proof/Word.lean ====
section
/-! DEFINITION. The widths of the RBC's quantities (00_scope.md R8, R11). -/

namespace Sys2Proof

/-- A byte: 8 bits, numbered 7 down to 0 (R8). -/
abbrev Byte := BitVec 8

/-- A 16-bit unsigned quantity: `WIDTH` and the length field (R8, R25). -/
abbrev U16 := BitVec 16

/-- A monochrome cell: 1 is light, 0 is dark (R11). -/
abbrev Cell := BitVec 1

/-- A row of monochrome cells; element 0 is column 0 (R40). -/
abbrev Row := List Cell

/-- The light cell (R11). -/
abbrev light : Cell := 1#1

/-- The dark cell (R11). -/
abbrev dark : Cell := 0#1

end Sys2Proof
end

