-- ==== Sys2Proof/Syntax.lean ====
section
/-! DEFINITION. The instructions of the RBC: one constructor for each row of opcode_table.json. The first sixteen are
the host transactions of 30_encoding.md R63, the other thirteen the device commands of R75. Then what an encoding is: a
host transaction is a record (R61), a device command a byte sequence (R66). -/

namespace Sys2Proof

/-- The two places an encoding can stand (30_encoding.md R60): a host transaction is input, identified by its host
opcode; a device command is output, identified by its first two bytes. -/
inductive Port
  | host
  | device
deriving DecidableEq, Repr

/-- One constructor for each row of opcode_table.json, with the operands R63 and R66 to R71 give it. -/
inductive Instr
  /-- PRST, hop 0x01 (R175). -/
  | prst
  /-- CUT, hop 0x02 (R176). -/
  | cut
  /-- PCUT, hop 0x03 (R177). -/
  | pcut
  /-- LFR n, hop 0x04 (R178). -/
  | lfr (n : Byte)
  /-- PMODE f, hop 0x05 (R179). -/
  | pmode (f : Byte)
  /-- DBL b, hop 0x06 (R180). -/
  | dbl (b : Byte)
  /-- UL b, hop 0x07 (R181). -/
  | ul (b : Byte)
  /-- BCH v, hop 0x08 (R182). -/
  | bch (v : Byte)
  /-- BCW v, hop 0x09 (R183). -/
  | bcw (v : Byte)
  /-- BCTP v, hop 0x0A (R184). -/
  | bctp (v : Byte)
  /-- BCF v, hop 0x0B (R185). -/
  | bcf (v : Byte)
  /-- BCUPC c, hop 0x0C (R186). -/
  | bcupc (c : List Byte)
  /-- IBEGIN m, w, hop 0x10 (R187). -/
  | ibegin (m : Byte) (w : U16)
  /-- IROWG s, hop 0x11 (R105). -/
  | irowg (s : List Byte)
  /-- IROWM p, hop 0x12 (R106). -/
  | irowm (p : Row)
  /-- IEND, hop 0x13 (R188). -/
  | iend
  /-- D_RESET, 1B 40 (R161). -/
  | dReset
  /-- D_CUT, 1B 69 (R162). -/
  | dCut
  /-- D_PCUT, 1B 6D (R163). -/
  | dPcut
  /-- D_LFR, 1B 33 n (R164). -/
  | dLfr (n : Byte)
  /-- D_PMODE, 1B 21 f (R165). -/
  | dPmode (f : Byte)
  /-- D_DBL, 1B 47 and 01 or 00 (R166). -/
  | dDbl (on : Bool)
  /-- D_UL, 1B 2D and 01 or 00 (R167). -/
  | dUl (on : Bool)
  /-- D_BCPRINT, 1D 6B mode digits 00 (R172). -/
  | dBcprint (mode : Byte) (digits : List Byte)
  /-- D_IMGBAND, 1B 2A m low high data (R173). -/
  | dImgband (m : Byte) (w : U16) (data : List Byte)
  /-- D_BCH, 1D BC_SUB_HEIGHT v (R168). -/
  | dBch (v : Byte)
  /-- D_BCW, 1D BC_SUB_WIDTH v (R169). -/
  | dBcw (v : Byte)
  /-- D_BCTP, 1D BC_SUB_TEXTPOS v (R170). -/
  | dBctp (v : Byte)
  /-- D_BCF, 1D BC_SUB_FONT v (R171). -/
  | dBcf (v : Byte)
deriving DecidableEq, Repr

/-- Where an instruction's encoding stands (R60). -/
def Instr.port : Instr → Port
  | .prst => .host
  | .cut => .host
  | .pcut => .host
  | .lfr _ => .host
  | .pmode _ => .host
  | .dbl _ => .host
  | .ul _ => .host
  | .bch _ => .host
  | .bcw _ => .host
  | .bctp _ => .host
  | .bcf _ => .host
  | .bcupc _ => .host
  | .ibegin _ _ => .host
  | .irowg _ => .host
  | .irowm _ => .host
  | .iend => .host
  | .dReset => .device
  | .dCut => .device
  | .dPcut => .device
  | .dLfr _ => .device
  | .dPmode _ => .device
  | .dDbl _ => .device
  | .dUl _ => .device
  | .dBcprint _ _ => .device
  | .dImgband _ _ _ => .device
  | .dBch _ => .device
  | .dBcw _ => .device
  | .dBctp _ => .device
  | .dBcf _ => .device

/-! ### Encodings -/

/-- One operand of a host transaction. A sequence holds its own length k (R61). -/
inductive Operand
  /-- A u8. -/
  | u8 (b : Byte)
  /-- A u16. -/
  | u16 (w : U16)
  /-- A sequence of u8: characters or samples. -/
  | bytes (s : List Byte)
  /-- A sequence of 1-bit cells. -/
  | cells (p : Row)
deriving DecidableEq, Repr

/-- What R63 lists for one operand: its width, and of a sequence the largest k. -/
inductive OperandKind
  | u8
  | u16
  | bytes (most : Nat)
  | cells (most : Nat)
deriving DecidableEq, Repr

/-- A host transaction as the RBC takes it: the record (hop, operands) of R61. -/
structure HostRecord where
  hop : Byte
  operands : List Operand
deriving DecidableEq, Repr

/-- An encoding at its port (R60). -/
inductive Encoded
  /-- A host transaction's record (R61). -/
  | transaction (r : HostRecord)
  /-- A device command's bytes (R66). -/
  | command (bytes : List Byte)
deriving DecidableEq, Repr

/-- Where an encoding stands (R60). -/
def Encoded.port : Encoded → Port
  | .transaction _ => .host
  | .command _ => .device

end Sys2Proof
end

