-- ==== Sys2Proof/Config.lean ====
section
/-! DEFINITION. The implementation parameters of 00_scope.md R6 that belong to the RBC, and the mode variants of R13.
Those that a rule depends on are the fields of `Config`; `HOST_FRAMING`, on which none does, is `HostFraming`. -/

namespace Sys2Proof

/-- The four mode variants (R13): the first letter is the horizontal density, the second the vertical one. -/
inductive Variant
  | LL
  | HL
  | LH
  | HH
deriving DecidableEq, Repr

/-- The OPEN parameters of R6 with a part in the RBC's rules. `MODE_CODE(LL) = 0` is fixed by R6 and is no field. -/
structure Config where
  /-- `WMAX`, the largest image width; 16 bits keep it at most 65535. -/
  wmax : U16
  /-- `MODE_CODE(HL)`. -/
  modeHL : Byte
  /-- `MODE_CODE(LH)`. -/
  modeLH : Byte
  /-- `MODE_CODE(HH)`. -/
  modeHH : Byte
  /-- `BC_SUB_HEIGHT`. -/
  bcSubHeight : Byte
  /-- `BC_SUB_WIDTH`. -/
  bcSubWidth : Byte
  /-- `BC_SUB_TEXTPOS`. -/
  bcSubTextPos : Byte
  /-- `BC_SUB_FONT`. -/
  bcSubFont : Byte
  /-- `BC_MODE_UPCA`. -/
  bcModeUpca : Byte
deriving DecidableEq, Repr

/-- `MODE_CODE(v)` (R6). -/
def Config.modeCode (cfg : Config) : Variant → Byte
  | .LL => 0x00#8
  | .HL => cfg.modeHL
  | .LH => cfg.modeLH
  | .HH => cfg.modeHH

/-- The constraints column of R6: `1 ≤ WMAX`, `MODE_CODE` injective, the four sub-command bytes distinct and none
of them 0x6B. -/
def Config.wf (cfg : Config) : Bool :=
  decide (1 ≤ cfg.wmax.toNat)
    && decide ([0x00#8, cfg.modeHL, cfg.modeLH, cfg.modeHH].Nodup)
    && decide ([0x6B#8, cfg.bcSubHeight, cfg.bcSubWidth, cfg.bcSubTextPos, cfg.bcSubFont].Nodup)

/-- The parameter `HOST_FRAMING` of R6: how a host transaction is carried on the wire into the RBC. What travels on the
wire is a type of its own, which R6 leaves open with the rest. It is an argument of whatever speaks of the wire
(`decodeWire`, `takeWire`) and of nothing else: the RBC takes records (R61), and no rule depends on the framing. -/
structure HostFraming (Wire : Type) where
  /-- What the host puts on the wire for a record. -/
  carry : HostRecord → Wire
  /-- The record that arrives; none if what is on the wire carries no whole one. -/
  read : Wire → Option HostRecord

/-- The suggested instance of R6 [from general knowledge, not in source], with the largest `WMAX` that R6 allows.
PRESUMED (the suggested bytes) and DESIGN CHOICE (`WMAX`): log 2. -/
def Config.suggested : Config where
  wmax := 65535#16
  modeHL := 0x01#8
  modeLH := 0x20#8
  modeHH := 0x21#8
  bcSubHeight := 0x68#8
  bcSubWidth := 0x77#8
  bcSubTextPos := 0x48#8
  bcSubFont := 0x66#8
  bcModeUpca := 0x00#8

end Sys2Proof
end

