-- ==== Sys2Proof/Machine/Operands.lean ====
section
/-! DEFINITION. Operand assembly: the mode functions of 10_state.md R24, the threshold of R100, the boolean, length and
digit operands of 30_encoding.md R72 to R74, and the cell byte of the byte framing (log 1). Every definition here is total and
reads no state. -/

namespace Sys2Proof

/-- `rowlimit`: 8 rows for low vertical density, 24 for high (R24). -/
def rowlimit : Variant → Nat
  | .LL => 8
  | .HL => 8
  | .LH => 24
  | .HH => 24

/-- `density`: packed bytes per column, 3 for high vertical density, else 1 (R24). -/
def density : Variant → Nat
  | .LL => 1
  | .HL => 1
  | .LH => 3
  | .HH => 3

/-- The variant whose mode code is `m`, if `m` is one of `MODES` (R24). -/
def variantOf (cfg : Config) (m : Byte) : Option Variant :=
  if m = cfg.modeCode .LL then some .LL
  else if m = cfg.modeCode .HL then some .HL
  else if m = cfg.modeCode .LH then some .LH
  else if m = cfg.modeCode .HH then some .HH
  else none

/-- `Threshold(s)` (R100): light above 128, dark otherwise. -/
def threshold (s : Byte) : Cell :=
  if 128 < s.toNat then light else dark

/-- The boolean parameter byte (R72): 0x00 for 0, 0x01 for any other value. -/
def boolByte (b : Byte) : Byte :=
  if b = 0x00#8 then 0x00#8 else 0x01#8

/-- `w mod 256`, the byte emitted first (R46, R73). -/
def lowByte (w : U16) : Byte := BitVec.ofNat 8 (w.toNat % 256)

/-- `w div 256`, the byte emitted second (R46, R73). -/
def highByte (w : U16) : Byte := BitVec.ofNat 8 (w.toNat / 256)

/-- The 16-bit number of a low and a high byte (R46, R76). -/
def word16 (lo hi : Byte) : U16 := BitVec.ofNat 16 (lo.toNat + 256 * hi.toNat)

/-- Whether a character byte is an ASCII digit, 0x30 to 0x39 (R74). -/
def isDigit (x : Byte) : Bool := decide (0x30 ≤ x.toNat) && decide (x.toNat ≤ 0x39)

/-- The digit bytes of a character sequence, in order (R74). -/
def digitsOf (c : List Byte) : List Byte := c.filter isDigit

/-- Whether a UPC-A digit count is accepted: 11 or 12 (R7, R186). -/
def upcLengthOk (n : Nat) : Bool := decide (11 ≤ n) && decide (n ≤ 12)

/-- The byte that holds one cell in the byte framing (log 1). DESIGN CHOICE. -/
def byteOfCell (c : Cell) : Byte := c.setWidth 8

/-- The cell a byte of the byte framing holds; a byte above 1 holds none (log 1). DESIGN CHOICE. -/
def cellOfByte (b : Byte) : Option Cell :=
  if b = 0x00#8 then some dark
  else if b = 0x01#8 then some light
  else none

/-- The cells of such bytes, if every byte holds one (log 1). DESIGN CHOICE. -/
def cellsOfBytes : List Byte → Option (List Cell)
  | [] => some []
  | b :: bs =>
    match cellOfByte b, cellsOfBytes bs with
    | some c, some cs => some (c :: cs)
    | _, _ => none

end Sys2Proof
end

