-- ==== Sys2Proof/Decode.lean ====
section
/-! DEFINITION. The decoder and, after it, the encoder.

A host transaction is a record (hop, operands) that arrives whole (30_encoding.md R61) and is decoded by its host opcode
(R63). How a record is carried on the wire is the parameter `HOST_FRAMING` (R6), an argument of `decodeWire`;
`byteFraming` is one instance of it (log 1). A device command is decoded from its first two bytes (R75, R76). -/

namespace Sys2Proof

/-- Why bytes are no instruction. -/
inductive DecodeError
  /-- Nothing to decode. -/
  | empty
  /-- A host opcode of R65, which R228 answers with `UnsupportedOperation`. -/
  | reservedOpcode (hop : Byte)
  /-- The operands are not those R63 lists for the host opcode (R61 says the RBC never sees such a record). -/
  | wrongOperands (hop : Byte)
  /-- What is on the wire carries no whole record (R61 says the RBC never sees that). -/
  | noRecord
  /-- The first two bytes are no row of R75. -/
  | unknownCommand (b0 b1 : Byte)
  /-- A device command that stops early, or whose parameter byte R68 or R70 does not allow. -/
  | badCommand (b0 b1 : Byte)
  /-- Bytes after a complete device command. -/
  | trailingBytes
deriving DecidableEq, Repr

/-! ### Host transactions (R63) -/

/-- The operands column of R63. A host opcode that the table does not list has none. -/
def operandKinds (hop : Byte) : List OperandKind :=
  match hop.toNat with
  | 0x04 => [.u8]
  | 0x05 => [.u8]
  | 0x06 => [.u8]
  | 0x07 => [.u8]
  | 0x08 => [.u8]
  | 0x09 => [.u8]
  | 0x0A => [.u8]
  | 0x0B => [.u8]
  | 0x0C => [.bytes 255]
  | 0x10 => [.u8, .u16]
  | 0x11 => [.bytes 65535]
  | 0x12 => [.cells 65535]
  | _ => []

/-- Whether an operand is of a kind. -/
def Operand.fits : OperandKind → Operand → Bool
  | .u8, .u8 _ => true
  | .u16, .u16 _ => true
  | .bytes most, .bytes s => decide (s.length ≤ most)
  | .cells most, .cells p => decide (p.length ≤ most)
  | _, _ => false

/-- Whether operands are of the kinds listed, one of each, in order. -/
def operandsFit : List OperandKind → List Operand → Bool
  | [], [] => true
  | k :: ks, o :: os => o.fits k && operandsFit ks os
  | _, _ => false

/-- A whole record: its operands are those R63 lists for its host opcode (R61). -/
def HostRecord.whole (r : HostRecord) : Bool := operandsFit (operandKinds r.hop) r.operands

/-- A transaction with no operand. -/
def decodeNone (i : Instr) (hop : Byte) : List Operand → Except DecodeError Instr
  | [] => .ok i
  | _ :: _ => .error (.wrongOperands hop)

/-- A transaction with one u8 operand. -/
def decodeU8 (f : Byte → Instr) (hop : Byte) : List Operand → Except DecodeError Instr
  | [.u8 b] => .ok (f b)
  | _ => .error (.wrongOperands hop)

/-- IBEGIN's operands: a u8 and a u16. -/
def decodeModeWidth (hop : Byte) : List Operand → Except DecodeError Instr
  | [.u8 m, .u16 w] => .ok (.ibegin m w)
  | _ => .error (.wrongOperands hop)

/-- An operand that is a sequence of at most `most` u8: BCUPC's characters, IROWG's samples. -/
def decodeBytes (most : Nat) (f : List Byte → Instr) (hop : Byte) : List Operand → Except DecodeError Instr
  | [.bytes s] => if s.length ≤ most then .ok (f s) else .error (.wrongOperands hop)
  | _ => .error (.wrongOperands hop)

/-- An operand that is a sequence of at most `most` cells: IROWM's row. -/
def decodeCells (most : Nat) (f : Row → Instr) (hop : Byte) : List Operand → Except DecodeError Instr
  | [.cells p] => if p.length ≤ most then .ok (f p) else .error (.wrongOperands hop)
  | _ => .error (.wrongOperands hop)

/-- A host transaction, by its host opcode (R63). Every opcode the table does not list is reserved, whatever operands
come with it (R65, R229). -/
def decodeHost (r : HostRecord) : Except DecodeError Instr :=
  match r.hop.toNat with
  | 0x01 => decodeNone .prst r.hop r.operands
  | 0x02 => decodeNone .cut r.hop r.operands
  | 0x03 => decodeNone .pcut r.hop r.operands
  | 0x04 => decodeU8 .lfr r.hop r.operands
  | 0x05 => decodeU8 .pmode r.hop r.operands
  | 0x06 => decodeU8 .dbl r.hop r.operands
  | 0x07 => decodeU8 .ul r.hop r.operands
  | 0x08 => decodeU8 .bch r.hop r.operands
  | 0x09 => decodeU8 .bcw r.hop r.operands
  | 0x0A => decodeU8 .bctp r.hop r.operands
  | 0x0B => decodeU8 .bcf r.hop r.operands
  | 0x0C => decodeBytes 255 .bcupc r.hop r.operands
  | 0x10 => decodeModeWidth r.hop r.operands
  | 0x11 => decodeBytes 65535 .irowg r.hop r.operands
  | 0x12 => decodeCells 65535 .irowm r.hop r.operands
  | 0x13 => decodeNone .iend r.hop r.operands
  | _ => .error (.reservedOpcode r.hop)

/-! ### The wire (R6, R61) -/

/-- What a framing owes (R61): every whole record arrives as it was sent. -/
def HostFraming.Faithful {Wire : Type} (F : HostFraming Wire) : Prop :=
  ∀ r : HostRecord, r.whole = true → F.read (F.carry r) = some r

/-- The instruction that the wire carries under the framing `F`. -/
def decodeWire {Wire : Type} (F : HostFraming Wire) (wire : Wire) : Except DecodeError Instr :=
  match F.read wire with
  | none => .error .noRecord
  | some r => decodeHost r

/-- The two bytes of a sequence's length k (log 1). DESIGN CHOICE. -/
def lengthBytes (k : Nat) : List Byte := [lowByte (BitVec.ofNat 16 k), highByte (BitVec.ofNat 16 k)]

/-- The bytes of one operand (log 1). DESIGN CHOICE. -/
def bytesOfOperand : Operand → List Byte
  | .u8 b => [b]
  | .u16 w => [lowByte w, highByte w]
  | .bytes s => lengthBytes s.length ++ s
  | .cells p => lengthBytes p.length ++ p.map byteOfCell

/-- The operand of a kind at the head of the bytes, and the bytes after it (log 1). DESIGN CHOICE. -/
def takeOperand : OperandKind → List Byte → Option (Operand × List Byte)
  | .u8, b :: rest => some (.u8 b, rest)
  | .u16, lo :: hi :: rest => some (.u16 (word16 lo hi), rest)
  | .bytes _, lo :: hi :: rest =>
    let k := (word16 lo hi).toNat
    if k ≤ rest.length then some (.bytes (rest.take k), rest.drop k) else none
  | .cells _, lo :: hi :: rest =>
    let k := (word16 lo hi).toNat
    if k ≤ rest.length then
      match cellsOfBytes (rest.take k) with
      | none => none
      | some p => some (.cells p, rest.drop k)
    else none
  | _, _ => none

/-- The operands of the kinds listed, with no byte left over (log 1). DESIGN CHOICE. -/
def takeOperands : List OperandKind → List Byte → Option (List Operand)
  | [], [] => some []
  | [], _ :: _ => none
  | kind :: kinds, bytes =>
    match takeOperand kind bytes with
    | none => none
    | some (o, rest) =>
      match takeOperands kinds rest with
      | none => none
      | some os => some (o :: os)

/-- The record that bytes carry, if it is a whole one (log 1). DESIGN CHOICE. -/
def recordOfBytes : List Byte → Option HostRecord
  | [] => none
  | hop :: bytes =>
    match takeOperands (operandKinds hop) bytes with
    | none => none
    | some os => if operandsFit (operandKinds hop) os then some ⟨hop, os⟩ else none

/-- One instance of `HOST_FRAMING`, on bytes: the host opcode, then the operands in R63's order, a u16 and a sequence's
length low byte first, a cell in a byte of its own (log 1). No definition of the machine uses it. DESIGN CHOICE. -/
def byteFraming : HostFraming (List Byte) where
  carry r := r.hop :: (r.operands.map bytesOfOperand).flatten
  read := recordOfBytes

/-! ### Device commands (R75, R76) -/

/-- The answer for one device command at the head of a byte stream: the command and the bytes after it. -/
abbrev CommandResult := Except DecodeError (Instr × List Byte)

/-- A command with one parameter byte (R68, R69). -/
def decodeParam (b0 b1 : Byte) (f : Byte → Instr) : List Byte → CommandResult
  | p :: rest => .ok (f p, rest)
  | [] => .error (.badCommand b0 b1)

/-- A command whose parameter byte is 0x01 or 0x00 (R68). -/
def decodeBoolParam (b0 b1 : Byte) (f : Bool → Instr) : List Byte → CommandResult
  | p :: rest =>
    if p = 0x00#8 then .ok (f false, rest)
    else if p = 0x01#8 then .ok (f true, rest)
    else .error (.badCommand b0 b1)
  | [] => .error (.badCommand b0 b1)

/-- The Image band after its first two bytes (R70, R76): the length of its data comes from its header. -/
def decodeImage (cfg : Config) (b0 b1 : Byte) : List Byte → CommandResult
  | m :: lo :: hi :: rest =>
    match variantOf cfg m with
    | none => .error (.badCommand b0 b1)
    | some v =>
      let n := density v * (word16 lo hi).toNat
      if n ≤ rest.length then .ok (.dImgband m (word16 lo hi) (rest.take n), rest.drop n)
      else .error (.badCommand b0 b1)
  | _ => .error (.badCommand b0 b1)

/-- The bytes before the first 0x00 and the bytes after it (R76). -/
def splitAtNul : List Byte → Option (List Byte × List Byte)
  | [] => none
  | b :: bs =>
    if b = 0x00#8 then some ([], bs)
    else
      match splitAtNul bs with
      | none => none
      | some (ds, rest) => some (b :: ds, rest)

/-- The Barcode print after its first two bytes (R71, R76): it runs to the first 0x00 at offset 3 or later. -/
def decodeBarcode (b0 b1 : Byte) : List Byte → CommandResult
  | mode :: bs =>
    match splitAtNul bs with
    | none => .error (.badCommand b0 b1)
    | some (digits, rest) => .ok (.dBcprint mode digits, rest)
  | [] => .error (.badCommand b0 b1)

/-- The ESC commands of R75. -/
def decodeEsc (cfg : Config) (b0 b1 : Byte) (rest : List Byte) : CommandResult :=
  match b1.toNat with
  | 0x40 => .ok (.dReset, rest)
  | 0x69 => .ok (.dCut, rest)
  | 0x6D => .ok (.dPcut, rest)
  | 0x33 => decodeParam b0 b1 .dLfr rest
  | 0x21 => decodeParam b0 b1 .dPmode rest
  | 0x47 => decodeBoolParam b0 b1 .dDbl rest
  | 0x2D => decodeBoolParam b0 b1 .dUl rest
  | 0x2A => decodeImage cfg b0 b1 rest
  | _ => .error (.unknownCommand b0 b1)

/-- The GS commands of R75; the four setting sub-commands are parameters (R69). -/
def decodeGs (cfg : Config) (b0 b1 : Byte) (rest : List Byte) : CommandResult :=
  if b1 = 0x6B#8 then decodeBarcode b0 b1 rest
  else if b1 = cfg.bcSubHeight then decodeParam b0 b1 .dBch rest
  else if b1 = cfg.bcSubWidth then decodeParam b0 b1 .dBcw rest
  else if b1 = cfg.bcSubTextPos then decodeParam b0 b1 .dBctp rest
  else if b1 = cfg.bcSubFont then decodeParam b0 b1 .dBcf rest
  else .error (.unknownCommand b0 b1)

/-- The device command at the head of a byte stream, and the bytes after it (R75, R76). -/
def decodeCommand (cfg : Config) : List Byte → CommandResult
  | b0 :: b1 :: rest =>
    if b0 = 0x1B#8 then decodeEsc cfg b0 b1 rest
    else if b0 = 0x1D#8 then decodeGs cfg b0 b1 rest
    else .error (.unknownCommand b0 b1)
  | b0 :: [] => .error (.badCommand b0 0x00#8)
  | [] => .error .empty

/-- Exactly one device command. -/
def decodeDevice (cfg : Config) (bytes : List Byte) : Except DecodeError Instr :=
  match decodeCommand cfg bytes with
  | .error e => .error e
  | .ok (i, []) => .ok i
  | .ok (_, _ :: _) => .error .trailingBytes

/-- The decoder of R75 run along a byte stream, at most `fuel` commands. -/
def decodeStreamFuel (cfg : Config) : Nat → List Byte → Except DecodeError (List Instr)
  | _, [] => .ok []
  | 0, _ :: _ => .error .trailingBytes
  | fuel + 1, b :: bs =>
    match decodeCommand cfg (b :: bs) with
    | .error e => .error e
    | .ok (i, rest) =>
      match decodeStreamFuel cfg fuel rest with
      | .error e => .error e
      | .ok is => .ok (i :: is)

/-- The device commands of a byte stream such as `OUT` (R75, R76): a command is at least one byte long, so the stream's
length bounds their number. -/
def decodeStream (cfg : Config) (bytes : List Byte) : Except DecodeError (List Instr) :=
  decodeStreamFuel cfg bytes.length bytes

/-- The decoder (R60): what an encoding means at the port it stands at. -/
def decode (cfg : Config) : Encoded → Except DecodeError Instr
  | .transaction r => decodeHost r
  | .command bytes => decodeDevice cfg bytes

/-! ### The device command encodings of 42_command_encoder.md section 1 -/

/-- R161. -/
def encReset : List Byte := [0x1B#8, 0x40#8]

/-- R162. -/
def encFullCut : List Byte := [0x1B#8, 0x69#8]

/-- R163. -/
def encPartialCut : List Byte := [0x1B#8, 0x6D#8]

/-- R164. -/
def encLineFeedRate (n : Byte) : List Byte := [0x1B#8, 0x33#8, n]

/-- R165. -/
def encPrintMode (f : Byte) : List Byte := [0x1B#8, 0x21#8, f]

/-- R166. -/
def encDoublePrint (b : Byte) : List Byte := [0x1B#8, 0x47#8, boolByte b]

/-- R167. -/
def encUnderline (b : Byte) : List Byte := [0x1B#8, 0x2D#8, boolByte b]

/-- R168. -/
def encBarcodeHeight (cfg : Config) (v : Byte) : List Byte := [0x1D#8, cfg.bcSubHeight, v]

/-- R169. -/
def encBarcodeWidth (cfg : Config) (v : Byte) : List Byte := [0x1D#8, cfg.bcSubWidth, v]

/-- R170. -/
def encBarcodeTextPos (cfg : Config) (v : Byte) : List Byte := [0x1D#8, cfg.bcSubTextPos, v]

/-- R171. -/
def encBarcodeFont (cfg : Config) (v : Byte) : List Byte := [0x1D#8, cfg.bcSubFont, v]

/-- R172. -/
def encBarcodePrint (mode : Byte) (digits : List Byte) : List Byte :=
  [0x1D#8, 0x6B#8, mode] ++ digits ++ [0x00#8]

/-- `ImageBand(m, W, data)` (R173). -/
def imageBand (m : Byte) (w : U16) (data : List Byte) : List Byte :=
  [0x1B#8, 0x2A#8, m, lowByte w, highByte w] ++ data

/-- The byte of a Boolean parameter (R72). -/
def byteOfBool (on : Bool) : Byte := if on then 0x01#8 else 0x00#8

/-! ### The encoder -/

/-- The encoding of an instruction: a host transaction's record (R61, R63) or a device command's bytes (R66 to R71). -/
def encode (cfg : Config) : Instr → Encoded
  | .prst => .transaction ⟨0x01#8, []⟩
  | .cut => .transaction ⟨0x02#8, []⟩
  | .pcut => .transaction ⟨0x03#8, []⟩
  | .lfr n => .transaction ⟨0x04#8, [.u8 n]⟩
  | .pmode f => .transaction ⟨0x05#8, [.u8 f]⟩
  | .dbl b => .transaction ⟨0x06#8, [.u8 b]⟩
  | .ul b => .transaction ⟨0x07#8, [.u8 b]⟩
  | .bch v => .transaction ⟨0x08#8, [.u8 v]⟩
  | .bcw v => .transaction ⟨0x09#8, [.u8 v]⟩
  | .bctp v => .transaction ⟨0x0A#8, [.u8 v]⟩
  | .bcf v => .transaction ⟨0x0B#8, [.u8 v]⟩
  | .bcupc c => .transaction ⟨0x0C#8, [.bytes c]⟩
  | .ibegin m w => .transaction ⟨0x10#8, [.u8 m, .u16 w]⟩
  | .irowg s => .transaction ⟨0x11#8, [.bytes s]⟩
  | .irowm p => .transaction ⟨0x12#8, [.cells p]⟩
  | .iend => .transaction ⟨0x13#8, []⟩
  | .dReset => .command encReset
  | .dCut => .command encFullCut
  | .dPcut => .command encPartialCut
  | .dLfr n => .command (encLineFeedRate n)
  | .dPmode f => .command (encPrintMode f)
  | .dDbl on => .command (encDoublePrint (byteOfBool on))
  | .dUl on => .command (encUnderline (byteOfBool on))
  | .dBcprint mode digits => .command (encBarcodePrint mode digits)
  | .dImgband m w data => .command (imageBand m w data)
  | .dBch v => .command (encBarcodeHeight cfg v)
  | .dBcw v => .command (encBarcodeWidth cfg v)
  | .dBctp v => .command (encBarcodeTextPos cfg v)
  | .dBcf v => .command (encBarcodeFont cfg v)

/-! ### The opcode table's own words -/

/-- The operand of a kind with every bit zero; a sequence's length k is 0. -/
def zeroOperand : OperandKind → Operand
  | .u8 => .u8 0x00#8
  | .u16 => .u16 0#16
  | .bytes _ => .bytes []
  | .cells _ => .cells []

/-- The record of a host opcode whose operands are all zero (log 16). -/
def zeroRecord (hop : Byte) : HostRecord := ⟨hop, (operandKinds hop).map zeroOperand⟩

/-- How many bytes follow the first two of the shortest device command with the second byte `b1` (R66): one for E3 and
G3, a mode byte and the terminator for GBC, a mode byte and a zero length for EIMG. -/
def shortestParams (b0 b1 : Byte) : Nat :=
  if b0 = 0x1B#8 then
    match b1.toNat with
    | 0x33 => 1
    | 0x21 => 1
    | 0x47 => 1
    | 0x2D => 1
    | 0x2A => 3
    | _ => 0
  else if b0 = 0x1D#8 then (if b1 = 0x6B#8 then 2 else 1)
  else 0

/-- The encoding of a table row's word `w`, every bit above `nbits` zero: a host row has 8 bits, its host opcode. The
table writes a device row as ONE number whose most significant byte is byte 0 (0x1B40 is 1B 40), so byte 0 is taken from
the top (log 16). -/
def tableEncoded (nbits w : Nat) : Encoded :=
  if nbits = 8 then .transaction (zeroRecord (BitVec.ofNat 8 w))
  else if nbits = 16 then
    let b0 : Byte := BitVec.ofNat 8 (w / 256)
    let b1 : Byte := BitVec.ofNat 8 w
    .command (b0 :: b1 :: List.replicate (shortestParams b0 b1) 0x00#8)
  else .command [BitVec.ofNat 8 (w / 65536), BitVec.ofNat 8 (w / 256), BitVec.ofNat 8 w]

/-- The instruction the decoder reads from a table row's word. A G3 row's sub-command byte is a parameter (R69), so its
word decodes under the suggested instance, the one `State.reset` carries (log 2). -/
def decodeTableWord (nbits w : Nat) : Option Instr :=
  match decode Config.suggested (tableEncoded nbits w) with
  | .ok i => some i
  | .error _ => none

end Sys2Proof
end

