-- ==== Sys2Proof/Machine/State.lean ====
section
/-! DEFINITION. The state of the machine as plain data: the RBC's elements (10_state.md R23 to R28), the two histories
of 20_memory.md R43, the response sequence of R262, the configuration of 00_scope.md R6, and what the host, the reset
line and the transport will do next. -/

namespace Sys2Proof.Machine

/-- `SESSION` with the two registers that hold a value only while it is IMAGE (R23, R24, R25, R31). -/
inductive Session
  /-- IDLE. `MODE` and `WIDTH` hold no value (R31). -/
  | idle
  /-- IMAGE, with `MODE` and `WIDTH`. -/
  | image (mode : Byte) (width : U16)
deriving DecidableEq, Repr

/-- The response codes of 60_exceptions.md R220. Code 7 is reserved and never produced. -/
inductive Response
  /-- Code 0. -/
  | ok
  /-- Code 1 (R221). -/
  | invalidDimension
  /-- Code 2 (R222). -/
  | invalidBarcodeLength
  /-- Code 3 (R223). -/
  | transportUnavailable
  /-- Code 4 (R226). -/
  | unsupportedMode
  /-- Code 5 (R224). -/
  | sequenceError
  /-- Code 6 (R228). -/
  | unsupportedOperation
deriving DecidableEq, Repr

/-- One entry of `LOG` (R43). -/
inductive LogEntry
  /-- `Write(s)`. -/
  | write (s : List Byte)
  /-- `WriteFail(s, k)`. -/
  | writeFail (s : List Byte) (k : Nat)
  /-- `Flush`. -/
  | flush
  /-- `FlushFail`. -/
  | flushFail
deriving DecidableEq, Repr

/-- What ends one wait of the RBC on the transport (R44): an answer, or a reset that arrives while the RBC waits
(R251). -/
inductive Answer
  /-- `ok`. -/
  | ok
  /-- `fail`; of a failed write, `k` bytes reached the link, or all of them if it is shorter (R45, log 4). -/
  | fail (k : Nat)
  /-- A reset arrives; of the write it cuts, `k` bytes had been accepted (R251, log 8). -/
  | reset (k : Nat)
deriving DecidableEq, Repr

/-- How the transport goes on after its listed answers (log 3). -/
inductive LinkTail
  /-- It answers `ok` for ever. -/
  | ok
  /-- It answers `fail` for ever, with no byte accepted: a link that is not connected (R252). -/
  | fail
  /-- It never answers again (R258). -/
  | silent
deriving DecidableEq, Repr

/-- The transport's answers to come, first one first (log 3). -/
structure Link where
  answers : List Answer
  tail : LinkTail
deriving DecidableEq, Repr

/-- What the outside does next (log 8, log 9). -/
inductive Delivery
  /-- One whole record at the host port (R61), or one device command handed to the command encoder alone. -/
  | deliver (e : Encoded)
  /-- One whole record at the host port, with a reset that arrives after its last effect and before its response
  (R251). -/
  | cut (r : HostRecord)
  /-- A reset between transactions (R250). -/
  | reset
deriving DecidableEq, Repr

/-- The band buffer's contents: (row number, row) pairs, row numbers strictly rising (`Memory.wf`). A row that is not
listed has not been written in the current band and holds no value (R27, R31). -/
abbrev Memory := List (Nat × Row)

/-- The machine. -/
structure State where
  /-- `SESSION`, `MODE`, `WIDTH` (R23, R24, R25). -/
  session : Session
  /-- `ROWCNT` (R26). -/
  rowcnt : BitVec 5
  /-- `BAND` (R27). -/
  band : Memory
  /-- `RESP` (R28); `none` before the first response. -/
  resp : Option Response
  /-- `OUT` (R43). -/
  out : List Byte
  /-- `LOG` (R43). -/
  log : List LogEntry
  /-- The response sequence (R262). -/
  responses : List Response
  /-- The parameters of R6, which no step writes (R32, log 2). -/
  cfg : Config
  /-- The model's own: what the outside does next (log 11). -/
  input : List Delivery
  /-- The model's own: the transport's answers to come (log 3). -/
  link : Link
deriving DecidableEq, Repr

/-- Why the machine stops. -/
inductive Fault
  /-- Raised by `emit`, and through it by every instruction that emits: the transport never answers, so the RBC has
  no next step (R44, R258). Safe: the hardware is stuck too. -/
  | transportBlocked
  /-- Raised by packing, in IROWG, IROWM and IEND: a cell that holds no value is read (R31, 93 U8). Safe: unreachable
  under `State.inv`. -/
  | undefinedRead
  /-- Raised by IROWG, IROWM and IEND: `MODE` is none of `MODES`, so `rowlimit` has no value (R24). Safe: unreachable
  under `State.inv`. -/
  | undefinedMode
  /-- Raised by IROWG, IROWM and IEND: `ROWCNT` is not below `rowlimit(MODE)`, against the precondition of R40 and
  R104. Safe: unreachable under `State.inv`. -/
  | rowOutOfRange
deriving DecidableEq, Repr

/-- Why a step has no meaning. -/
inductive Refusal
  /-- Raised by `exec` alone, for an instruction with no meaning yet. Safe. -/
  | notModelled (mnemonic : String)
  /-- Raised by the delivery of a record whose operands are not those of R63, and by a wire that carries no whole
  record: R61 says the RBC never sees one (log 13). Safe. -/
  | malformedTransaction
  /-- Raised by the delivery of bytes that are no device command of R75 (R77, log 13). Safe. -/
  | malformedCommand
deriving DecidableEq, Repr

/-- What a meaning answers. -/
abbrev Result := Host.Outcome State Fault Refusal

/-- The machine right after reset (R34, R250): IDLE, no row in the band, no response yet; `OUT`, `LOG` and the response
sequence empty, as at the start of a run (R43, R262). The configuration is the suggested instance (log 2), nothing is
delivered yet (log 11), and the transport answers `ok` (log 3). -/
def State.reset : State where
  session := .idle
  rowcnt := 0#5
  band := []
  resp := none
  out := []
  log := []
  responses := []
  cfg := Config.suggested
  input := []
  link := ⟨[], .ok⟩

end Sys2Proof.Machine
end

