-- ==== Sys2Proof/Machine/Ops.lean ====
section
/-! DEFINITION. The operations every meaning is written over: the band buffer (20_memory.md R40, R41), the transport
(R44, R45), the response and the raising of an error (60_exceptions.md R220 to R229), and reset (70_reset_and_hazards.md
R250, R251). -/

namespace Sys2Proof.Machine

/-! ### The band buffer -/

/-- Whether row numbers rise strictly. -/
def Memory.rising : Memory → Bool
  | [] => true
  | [_] => true
  | a :: b :: rest => decide (a.1 < b.1) && Memory.rising (b :: rest)

/-- The canonical form: row numbers rise strictly and are below 24 (R27). -/
def Memory.wf (m : Memory) : Bool := Memory.rising m && m.all fun e => decide (e.1 < 24)

/-- Row `r`, if the current band has written it. -/
def Memory.read : Memory → Nat → Option Row
  | [], _ => none
  | (r', row) :: rest, r => if r' = r then some row else Memory.read rest r

/-- Row `r` becomes `row`; every other row stays. -/
def Memory.write : Memory → Nat → Row → Memory
  | [], r, row => [(r, row)]
  | (r', row') :: rest, r, row =>
    if r < r' then (r, row) :: (r', row') :: rest
    else if r' = r then (r, row) :: rest
    else (r', row') :: Memory.write rest r row

/-- `BandRead(r, x)` (R41): the cell, or none where it holds no value (R31). -/
def bandRead (s : State) (r x : Nat) : Option Cell :=
  match Memory.read s.band r with
  | none => none
  | some row => row[x]?

/-- `BandWrite(r, row)` (R40): a whole row at once. -/
def bandWrite (s : State) (r : Nat) (row : Row) : State :=
  { s with band := Memory.write s.band r row }

/-! ### The response, errors and reset -/

/-- `respond(r)`: the transaction's one response (R28, R62). -/
def respond (r : Response) (s : State) : State :=
  { s with resp := some r, responses := s.responses ++ [r] }

/-- The session ends: IDLE, `ROWCNT` 0, and `MODE`, `WIDTH` and `BAND` hold no value (R31, R188, R227). -/
def endSession (s : State) : State :=
  { s with session := .idle, rowcnt := 0#5, band := [] }

/-- An open session is abandoned; with none open nothing changes (R227). -/
def abandon (s : State) : State :=
  match s.session with
  | .idle => s
  | .image _ _ => endSession s

/-- `raise K()` (R225, R227): the RBC's one way of taking an error. The transaction ends with response K; a
`TransportUnavailable` first abandons an open session, every other kind leaves the rest as it was. There is no handler
and no return: the next transaction is taken normally (R232). -/
def raise (k : Response) (s : State) : State :=
  match k with
  | .transportUnavailable => respond .transportUnavailable (abandon s)
  | k => respond k s

/-- RBC reset (R34, R250): every state element at its reset value; no byte, no response; `OUT`, `LOG` and the response
sequence stay (R43). -/
def resetRbc (s : State) : State :=
  { s with session := .idle, rowcnt := 0#5, band := [], resp := none }

/-- A reset that arrives after the transaction's last effect and before its response (R251): the transaction gets no
response and the RBC is as after reset; what it did to the output stays. `before` is the state it started from. -/
def cutByReset (before : State) : Result → Result
  | .next t => .next (resetRbc { t with responses := before.responses })
  | .fault f => .fault f
  | .refused r => .refused r

/-! ### The transport -/

/-- What ends the RBC's next wait on the transport, and the link after it; none if nothing ever does (R44, R258). -/
def Link.next (l : Link) : Option (Answer × Link) :=
  match l.answers with
  | a :: rest => some (a, { l with answers := rest })
  | [] =>
    match l.tail with
    | .ok => some (.ok, l)
    | .fail => some (.fail 0, l)
    | .silent => none

/-- How an `Emit` ends. -/
inductive EmitResult
  /-- Write and flush answered `ok`. -/
  | done (s : State)
  /-- The write or the flush answered `fail` (R45). -/
  | failed (s : State)
  /-- A reset arrived during the write or the flush (R251). -/
  | cut (s : State)
  /-- The transport never answers (R258). -/
  | blocked
deriving Repr

/-- `TransportFlush` after the write of `Emit` (R45). -/
def flushLink (s : State) : EmitResult :=
  match Link.next s.link with
  | none => .blocked
  | some (.ok, l) => .done { s with link := l, log := s.log ++ [.flush] }
  | some (.fail _, l) => .failed { s with link := l, log := s.log ++ [.flushFail] }
  | some (.reset _, l) => .cut { s with link := l }

/-- `Emit(s)` (R45): one write, then one flush. A failed write leaves the first k bytes in `OUT`, 0 ≤ k ≤ len(s); so
does a write that a reset cuts, with no entry in `LOG`, since the interaction never got its answer (R251, log 8). -/
def emit (bytes : List Byte) (s : State) : EmitResult :=
  match Link.next s.link with
  | none => .blocked
  | some (.ok, l) => flushLink { s with link := l, out := s.out ++ bytes, log := s.log ++ [.write bytes] }
  | some (.fail k, l) =>
    .failed { s with
      link := l
      out := s.out ++ bytes.take k
      log := s.log ++ [.writeFail bytes (min k bytes.length)] }
  | some (.reset k, l) => .cut { s with link := l, out := s.out ++ bytes.take k }

/-- The rest of the transaction after an `Emit`: it goes on after success; a failure raises `TransportUnavailable`
(R45, R227); a reset ends it with no response (R251); a transport that never answers leaves the RBC stuck (R258). -/
def afterEmit (e : EmitResult) (k : State → Result) : Result :=
  match e with
  | .done s => k s
  | .failed s => .next (raise .transportUnavailable s)
  | .cut s => .next (resetRbc s)
  | .blocked => .fault .transportBlocked

/-- `Emit` as a statement of a transaction's pseudocode. -/
def emitThen (bytes : List Byte) (s : State) (k : State → Result) : Result :=
  afterEmit (emit bytes s) k

end Sys2Proof.Machine
end

