-- ==== Sys2Proof/Machine/Device.lean ====
section
/-! DEFINITION. The device commands as the command encoder's own operations (42_command_encoder.md R160): each is handed
to the transport by exactly one `Emit`. A device command is a part of a transaction, so it gives no response of its own
when it succeeds; when its `Emit` raises, the error is taken as in every transaction (R227). Log 9, log 10. -/

namespace Sys2Proof.Machine

/-- R160: one `Emit`, and nothing else. -/
def deviceCommand (bytes : List Byte) (s : State) : Result := emitThen bytes s fun t => .next t

/-- D_RESET (R161). -/
def execDReset (s : State) : Result := deviceCommand encReset s

/-- D_CUT (R162). -/
def execDCut (s : State) : Result := deviceCommand encFullCut s

/-- D_PCUT (R163). -/
def execDPcut (s : State) : Result := deviceCommand encPartialCut s

/-- D_LFR (R164). -/
def execDLfr (n : Byte) (s : State) : Result := deviceCommand (encLineFeedRate n) s

/-- D_PMODE (R165). -/
def execDPmode (f : Byte) (s : State) : Result := deviceCommand (encPrintMode f) s

/-- D_DBL (R166). -/
def execDDbl (on : Bool) (s : State) : Result := deviceCommand (encDoublePrint (byteOfBool on)) s

/-- D_UL (R167). -/
def execDUl (on : Bool) (s : State) : Result := deviceCommand (encUnderline (byteOfBool on)) s

/-- D_BCPRINT (R172). -/
def execDBcprint (mode : Byte) (digits : List Byte) (s : State) : Result :=
  deviceCommand (encBarcodePrint mode digits) s

/-- D_IMGBAND (R173). -/
def execDImgband (m : Byte) (w : U16) (data : List Byte) (s : State) : Result :=
  deviceCommand (imageBand m w data) s

/-- D_BCH (R168). -/
def execDBch (v : Byte) (s : State) : Result := deviceCommand (encBarcodeHeight s.cfg v) s

/-- D_BCW (R169). -/
def execDBcw (v : Byte) (s : State) : Result := deviceCommand (encBarcodeWidth s.cfg v) s

/-- D_BCTP (R170). -/
def execDBctp (v : Byte) (s : State) : Result := deviceCommand (encBarcodeTextPos s.cfg v) s

/-- D_BCF (R171). -/
def execDBcf (v : Byte) (s : State) : Result := deviceCommand (encBarcodeFont s.cfg v) s

end Sys2Proof.Machine
end

