-- ==== Sys2Proof/Machine/Packer.lean ====
section
/-! DEFINITION. The column-oriented bit packer of 41_bit_packer.md and the row intake of 40_raster_to_bitplane.md R104. -/

namespace Sys2Proof.Machine

/-- All values of a list, if every one is there. -/
def collect {α : Type} : List (Option α) → Option (List α)
  | [] => some []
  | none :: _ => none
  | some a :: rest =>
    match collect rest with
    | none => none
    | some as => some (a :: as)

/-- The sum of R130's loop from row `i` of the group on: the cell of row `i` goes to bit `7 - i`. -/
def weighCells : Nat → List Cell → Byte
  | _, [] => 0x00#8
  | i, c :: cs => (c.setWidth 8 <<< (7 - i)) + weighCells (i + 1) cs

/-- The packed byte of 8 cells, top row first: weighed, then every bit inverted (R130, 90_conflicts.md C1). -/
def packCells (cells : List Cell) : Byte := ~~~ (weighCells 0 cells)

/-- `PackByte(g, x)` (R130); none where a cell holds no value (R31). -/
def packByte (s : State) (g x : Nat) : Option Byte :=
  (collect ((List.range 8).map fun i => bandRead s (8 * g + i) x)).map packCells

/-- The bytes of column `x`, row groups in order: one in low density, three in high (R131, R132). -/
def packColumn (s : State) (d x : Nat) : Option (List Byte) :=
  collect ((List.range d).map fun g => packByte s g x)

/-- `PackBand()` (R131, R132): the columns in order. -/
def packBand (s : State) (v : Variant) (w : U16) : Option (List Byte) :=
  (collect ((List.range w.toNat).map fun x => packColumn s (density v) x)).map List.flatten

/-- `BandComplete()` (R136), then the rest of the transaction. The accumulator is cleared: `ROWCNT` 0, and no cell has
been written in the next band yet (R31). -/
def bandComplete (m : Byte) (w : U16) (v : Variant) (s : State) (k : State → Result) : Result :=
  match packBand s v w with
  | none => .fault .undefinedRead
  | some data => emitThen (imageBand m w data) s fun t => k { t with rowcnt := 0#5, band := [] }

/-- `PadBand()` (R134): rows `ROWCNT` to `rowlimit - 1` become light rows. -/
def padBand (w : U16) (v : Variant) (s : State) : State :=
  { s with
    band := (List.range' s.rowcnt.toNat (rowlimit v - s.rowcnt.toNat)).foldl
      (fun b r => Memory.write b r (List.replicate w.toNat light)) s.band
    rowcnt := BitVec.ofNat 5 (rowlimit v) }

/-- `AcceptRow(row)` (R104), then `respond(OK)` (R105, R106). -/
def acceptRow (m : Byte) (w : U16) (row : Row) (s : State) : Result :=
  match variantOf s.cfg m with
  | none => .fault .undefinedMode
  | some v =>
    if s.rowcnt.toNat < rowlimit v then
      let t := { bandWrite s s.rowcnt.toNat row with rowcnt := s.rowcnt + 1#5 }
      if t.rowcnt.toNat = rowlimit v then bandComplete m w v t fun u => .next (respond .ok u)
      else .next (respond .ok t)
    else .fault .rowOutOfRange

end Sys2Proof.Machine
end

