-- ==== Sys2Proof/Machine/Image.lean ====
section
/-! DEFINITION. The image session transactions: IBEGIN and IEND (42_command_encoder.md R187, R188), IROWG and IROWM
(40_raster_to_bitplane.md R105, R106). -/

namespace Sys2Proof.Machine

/-- IBEGIN m, w (R187): the checks in the order of its pseudocode, then the line-feed command, then the session. -/
def execIbegin (m : Byte) (w : U16) (s : State) : Result :=
  match s.session with
  | .image _ _ => .next (raise .sequenceError s)
  | .idle =>
    if w = 0#16 ∨ s.cfg.wmax < w then .next (raise .invalidDimension s)
    else
      match variantOf s.cfg m with
      | none => .next (raise .unsupportedMode s)
      | some _ =>
        emitThen (encLineFeedRate 0x01#8) s fun t =>
          .next (respond .ok { t with session := .image m w, rowcnt := 0#5, band := [] })

/-- The checks IROWG and IROWM share, then the row intake. -/
def rowTransaction (row : Row) (s : State) : Result :=
  match s.session with
  | .idle => .next (raise .sequenceError s)
  | .image m w =>
    if row.length = w.toNat then acceptRow m w row s
    else .next (raise .invalidDimension s)

/-- IROWG s (R105): one cell a sample, thresholded. -/
def execIrowg (samples : List Byte) (s : State) : Result := rowTransaction (samples.map threshold) s

/-- IROWM p (R106): the cells as they are. -/
def execIrowm (p : Row) (s : State) : Result := rowTransaction p s

/-- The last part of IEND (R188): the Reset command, then the session ends. -/
def closeImage (s : State) : Result :=
  emitThen encReset s fun t => .next (respond .ok (endSession t))

/-- IEND (R188): a partial band is padded and sent, then the Reset command. -/
def execIend (s : State) : Result :=
  match s.session with
  | .idle => .next (raise .sequenceError s)
  | .image m w =>
    if s.rowcnt = 0#5 then closeImage s
    else
      match variantOf s.cfg m with
      | none => .fault .undefinedMode
      | some v =>
        if s.rowcnt.toNat < rowlimit v then bandComplete m w v (padBand w v s) closeImage
        else .fault .rowOutOfRange

end Sys2Proof.Machine
end

