-- ==== Sys2Proof/Machine/Standalone.lean ====
section
/-! DEFINITION. The stand-alone command transactions of 42_command_encoder.md R174 to R186. -/

namespace Sys2Proof.Machine

/-- R174: legal only in IDLE; one `Emit` of one device command; then the response. -/
def standalone (bytes : List Byte) (s : State) : Result :=
  match s.session with
  | .image _ _ => .next (raise .sequenceError s)
  | .idle => emitThen bytes s fun t => .next (respond .ok t)

/-- PRST (R175). -/
def execPrst (s : State) : Result := standalone encReset s

/-- CUT (R176). -/
def execCut (s : State) : Result := standalone encFullCut s

/-- PCUT (R177). -/
def execPcut (s : State) : Result := standalone encPartialCut s

/-- LFR n (R178). -/
def execLfr (n : Byte) (s : State) : Result := standalone (encLineFeedRate n) s

/-- PMODE f (R179). -/
def execPmode (f : Byte) (s : State) : Result := standalone (encPrintMode f) s

/-- DBL b (R180). -/
def execDbl (b : Byte) (s : State) : Result := standalone (encDoublePrint b) s

/-- UL b (R181). -/
def execUl (b : Byte) (s : State) : Result := standalone (encUnderline b) s

/-- BCH v (R182). -/
def execBch (v : Byte) (s : State) : Result := standalone (encBarcodeHeight s.cfg v) s

/-- BCW v (R183). -/
def execBcw (v : Byte) (s : State) : Result := standalone (encBarcodeWidth s.cfg v) s

/-- BCTP v (R184). -/
def execBctp (v : Byte) (s : State) : Result := standalone (encBarcodeTextPos s.cfg v) s

/-- BCF v (R185). -/
def execBcf (v : Byte) (s : State) : Result := standalone (encBarcodeFont s.cfg v) s

/-- BCUPC c (R186): the session is checked first, then the digit count, then one `Emit`. -/
def execBcupc (c : List Byte) (s : State) : Result :=
  match s.session with
  | .image _ _ => .next (raise .sequenceError s)
  | .idle =>
    if upcLengthOk (digitsOf c).length then
      emitThen (encBarcodePrint s.cfg.bcModeUpca (digitsOf c)) s fun t => .next (respond .ok t)
    else .next (raise .invalidBarcodeLength s)

end Sys2Proof.Machine
end

