-- ==== Sys2Proof/Machine/Dispatch.lean ====
section
/-! DEFINITION. The one place that gives each instruction its meaning. -/

namespace Sys2Proof.Machine

def exec (i : Instr) (s : State) : Host.Outcome State Fault Refusal :=
  match i with
  | .prst => Sys2Proof.Machine.execPrst s
  | .cut => Sys2Proof.Machine.execCut s
  | .pcut => Sys2Proof.Machine.execPcut s
  | .lfr n => Sys2Proof.Machine.execLfr n s
  | .pmode f => Sys2Proof.Machine.execPmode f s
  | .dbl b => Sys2Proof.Machine.execDbl b s
  | .ul b => Sys2Proof.Machine.execUl b s
  | .bch v => Sys2Proof.Machine.execBch v s
  | .bcw v => Sys2Proof.Machine.execBcw v s
  | .bctp v => Sys2Proof.Machine.execBctp v s
  | .bcf v => Sys2Proof.Machine.execBcf v s
  | .bcupc c => Sys2Proof.Machine.execBcupc c s
  | .ibegin m w => Sys2Proof.Machine.execIbegin m w s
  | .irowg samples => Sys2Proof.Machine.execIrowg samples s
  | .irowm p => Sys2Proof.Machine.execIrowm p s
  | .iend => Sys2Proof.Machine.execIend s
  | .dReset => Sys2Proof.Machine.execDReset s
  | .dCut => Sys2Proof.Machine.execDCut s
  | .dPcut => Sys2Proof.Machine.execDPcut s
  | .dLfr n => Sys2Proof.Machine.execDLfr n s
  | .dPmode f => Sys2Proof.Machine.execDPmode f s
  | .dDbl on => Sys2Proof.Machine.execDDbl on s
  | .dUl on => Sys2Proof.Machine.execDUl on s
  | .dBcprint mode digits => Sys2Proof.Machine.execDBcprint mode digits s
  | .dImgband m w data => Sys2Proof.Machine.execDImgband m w data s
  | .dBch v => Sys2Proof.Machine.execDBch v s
  | .dBcw v => Sys2Proof.Machine.execDBcw v s
  | .dBctp v => Sys2Proof.Machine.execDBctp v s
  | .dBcf v => Sys2Proof.Machine.execDBcf v s

end Sys2Proof.Machine
end

