-- ==== Sys2Proof/Machine/Fetch.lean ====
section
/-! DEFINITION. How a delivery is taken: the record is decoded by its host opcode (30_encoding.md R60, R61), a reserved
opcode is answered (R65, R228), and an instruction is executed. -/

namespace Sys2Proof.Machine

/-- One record at the host port. A reserved host opcode raises `UnsupportedOperation` (R65, R228); a record that is not
whole never arrives (R61) and is refused (log 13). -/
def takeTransaction (r : HostRecord) (s : State) : Result :=
  match decode s.cfg (.transaction r) with
  | .ok i => exec i s
  | .error (.reservedOpcode _) => .next (raise .unsupportedOperation s)
  | .error _ => .refused .malformedTransaction

/-- One device command handed to the command encoder alone (log 9). -/
def takeCommand (bytes : List Byte) (s : State) : Result :=
  match decode s.cfg (.command bytes) with
  | .ok i => exec i s
  | .error _ => .refused .malformedCommand

/-- One delivery. -/
def takeDelivery (d : Delivery) (s : State) : Result :=
  match d with
  | .deliver (.transaction r) => takeTransaction r s
  | .deliver (.command bytes) => takeCommand bytes s
  | .cut r => cutByReset s (takeTransaction r s)
  | .reset => .next (resetRbc s)

/-- Nothing is delivered: the RBC is idle with its state held (R239, log 11). -/
def idleStep (s : State) : Result := .next s

/-- The delivery of a table row's word (log 16, log 18). -/
def tableDelivery (nbits w : Nat) : Delivery := .deliver (tableEncoded nbits w)

/-- What the RBC does with one transaction on a wire with the framing `F` (R6's `HOST_FRAMING`): it takes the record the
wire carries (R61). A wire that carries no whole record is refused (log 13). -/
def takeWire {Wire : Type} (F : HostFraming Wire) (wire : Wire) (s : State) : Result :=
  match F.read wire with
  | none => .refused .malformedTransaction
  | some r => takeTransaction r s

end Sys2Proof.Machine
end

