-- ==== Sys2Proof/Machine/Step.lean ====
section
/-! DEFINITION. One step: the next delivery is taken, in the order the host gives them (10_state.md R21). -/

namespace Sys2Proof.Machine

/-- One step of the machine. -/
def step (s : State) : Host.Outcome State Fault Refusal :=
  match s.input with
  | [] => idleStep s
  | d :: rest => takeDelivery d { s with input := rest }

/-- `s` with a table row's word as the next delivery (log 18). -/
def State.withFetchWord (s : State) (nbits w : Nat) : State :=
  { s with input := tableDelivery nbits w :: s.input }

end Sys2Proof.Machine
end

