-- ==== Sys2Proof/Machine/Flags.lean ====
section
/-! DEFINITION. The RBC has no status flags or condition codes; its one result per transaction is the response code
(10_state.md R22). This file holds the codes software sees. -/

namespace Sys2Proof.Machine

/-- The 3-bit code of a response (R28, R220). -/
def Response.code : Response → BitVec 3
  | .ok => 0#3
  | .invalidDimension => 1#3
  | .invalidBarcodeLength => 2#3
  | .transportUnavailable => 3#3
  | .unsupportedMode => 4#3
  | .sequenceError => 5#3
  | .unsupportedOperation => 6#3

/-- The bit of `SESSION`: IDLE is 0, IMAGE is 1 (R23). -/
def Session.code : Session → BitVec 1
  | .idle => 0#1
  | .image _ _ => 1#1

/-- `MODE`, where it holds a value (R24, R31). -/
def Session.mode : Session → Option Byte
  | .idle => none
  | .image m _ => some m

/-- `WIDTH`, where it holds a value (R25, R31). -/
def Session.width : Session → Option U16
  | .idle => none
  | .image _ w => some w

end Sys2Proof.Machine
end

