-- ==== Sys2Proof/Machine/Pseudo.lean ====
section
/-! DEFINITION. The pseudo-instructions of 30_encoding.md R80, the pictures and numbers of the assembler syntax R79 they
need, and the execution of a list of instructions (70_reset_and_hazards.md R262). -/

namespace Sys2Proof.Machine

/-- The cells of a picture (R79): `#` is dark, `.` is light; any other character makes it no picture. -/
def cellsOfPicture : List Char → Option Row
  | [] => some []
  | c :: cs =>
    match (if c = '#' then some dark else if c = '.' then some light else none), cellsOfPicture cs with
    | some a, some as => some (a :: as)
    | _, _ => none

/-- `IROWM* k, p` (R80): k copies. -/
def irowmStar (k : Nat) (p : Row) : List Instr := List.replicate k (.irowm p)

/-- `IROWG* k, s` (R80): k copies. -/
def irowgStar (k : Nat) (samples : List Byte) : List Instr := List.replicate k (.irowg samples)

/-- `PRINTIMG m, w` with row lines (R80). -/
def printImg (m : Byte) (w : U16) (rows : List Instr) : List Instr := .ibegin m w :: (rows ++ [.iend])

/-- `BARCODE c` (R80). -/
def barcode (c : List Byte) : List Instr := [.bcupc c]

/-- The instructions of a list in order, up to the first that stops the machine. -/
def execAll : List Instr → State → Result
  | [], s => .next s
  | i :: is, s =>
    match exec i s with
    | .next t => execAll is t
    | .fault f => .fault f
    | .refused r => .refused r

/-- The observation of a run (R262): the response codes' sequence, `OUT` and `LOG`. -/
structure Observation where
  responses : List Response
  out : List Byte
  log : List LogEntry
deriving DecidableEq, Repr

/-- What a state lets an observer see (R33, R262). -/
def observe (s : State) : Observation := ⟨s.responses, s.out, s.log⟩

end Sys2Proof.Machine
end

