-- ==== Sys2Proof/Safety.lean ====
section
/-! DEFINITION. What a claim may assume of a state and ask of a step. -/

namespace Sys2Proof.Machine

/-- The invariants of 10_state.md R29, with R6's constraints on the parameters. In IDLE: `ROWCNT` is 0 and no cell of
`BAND` holds a value. In IMAGE: `MODE` is one of `MODES`, 1 ≤ `WIDTH` ≤ `WMAX`, `ROWCNT` is below `rowlimit(MODE)`, and
exactly the rows 0 to `ROWCNT` - 1 have been written, each with `WIDTH` cells. -/
def State.inv (s : State) : Bool :=
  s.cfg.wf &&
    match s.session with
    | .idle => decide (s.rowcnt = 0#5) && decide (s.band = [])
    | .image m w =>
      match variantOf s.cfg m with
      | none => false
      | some v =>
        decide (1 ≤ w.toNat) && decide (w.toNat ≤ s.cfg.wmax.toNat)
          && decide (s.rowcnt.toNat < rowlimit v)
          && decide (s.band.map Prod.fst = List.range s.rowcnt.toNat)
          && s.band.all fun e => decide (e.2.length = w.toNat)

/-- The outcomes a safe run may have: it goes on, or the transport never answers (R258), or the delivery was no whole
record and no device command (R61, R77). It never reads what holds no value and never leaves a primitive's precondition
(R30, R31, R40). -/
def SafeOutcome (o : Result) : Prop :=
  (∃ t, o = .next t) ∨ o = .fault .transportBlocked ∨ o = .refused .malformedTransaction
    ∨ o = .refused .malformedCommand

/-- The transport answers the next write and the next flush `ok` and goes on as `l'` (R44, R45). -/
def Link.Accepts (l l' : Link) : Prop :=
  ∃ l₁, Link.next l = some (.ok, l₁) ∧ Link.next l₁ = some (.ok, l')

/-- No reset arrives while the RBC waits on the transport. -/
def Link.noReset (l : Link) : Bool :=
  l.answers.all fun a =>
    match a with
    | .reset _ => false
    | _ => true

/-- No answer of the transport is a failure, a reset or a silence: it accepts everything it is given. -/
def Link.allOk (l : Link) : Bool := l.answers.all (fun a => decide (a = .ok)) && decide (l.tail = .ok)

end Sys2Proof.Machine
end

