-- ==== Sys2Proof/WellFormed.lean ====
section
/-! DEFINITION. Which terms of `Instr` an encoding of the spec can hold: the operand bounds of 30_encoding.md R63, R70
and R71. A well-formed host transaction may still be answered with an error: which values are LEGAL is the meaning's
question (60_exceptions.md). -/

namespace Sys2Proof

/-- Whether the spec's encoding can hold the instruction. The sequence bounds are R63's; the bounds of the barcode print
are R71's and R172's; those of the image band are R70's and R173's. -/
def Instr.wellFormed (cfg : Config) : Instr → Bool
  | .prst => true
  | .cut => true
  | .pcut => true
  | .lfr _ => true
  | .pmode _ => true
  | .dbl _ => true
  | .ul _ => true
  | .bch _ => true
  | .bcw _ => true
  | .bctp _ => true
  | .bcf _ => true
  | .bcupc c => decide (c.length ≤ 255)
  | .ibegin _ _ => true
  | .irowg s => decide (s.length ≤ 65535)
  | .irowm p => decide (p.length ≤ 65535)
  | .iend => true
  | .dReset => true
  | .dCut => true
  | .dPcut => true
  | .dLfr _ => true
  | .dPmode _ => true
  | .dDbl _ => true
  | .dUl _ => true
  | .dBcprint mode digits =>
    decide (mode = cfg.bcModeUpca) && upcLengthOk digits.length && digits.all isDigit
  | .dImgband m w data =>
    match variantOf cfg m with
    | none => false
    | some v => decide (1 ≤ w.toNat) && decide (data.length = density v * w.toNat)
  | .dBch _ => true
  | .dBcw _ => true
  | .dBctp _ => true
  | .dBcf _ => true

end Sys2Proof
end

