-- ==== Sys2Proof/Certificates/Slice0/Obligations.lean ====
section
/-! DEFINITION. The statements for the provers. First the words they are written in, none of them the model's own
meaning of an instruction; then the statements. -/

namespace Sys2Proof.Claims

open Sys2Proof.Machine

/-- `s` after the transport has accepted and flushed `bytes` and goes on as `l`: nothing else differs (R45). -/
def sent (s : State) (bytes : List Byte) (l : Link) : State :=
  { s with link := l, out := s.out ++ bytes, log := s.log ++ [.write bytes, .flush] }

/-- `s` with one more response: nothing else differs (R28, R262). -/
def answered (s : State) (r : Response) : State := { s with resp := some r, responses := s.responses ++ [r] }

/-- `s` with its session over: IDLE, `ROWCNT` 0, and `MODE`, `WIDTH` and `BAND` without a value (R31, R227). -/
def closed (s : State) : State := { s with session := .idle, rowcnt := 0#5, band := [] }

/-- `s` with every element of the RBC at its reset value, and no response (R34, R250). -/
def atReset (s : State) : State := { s with session := .idle, rowcnt := 0#5, band := [], resp := none }

/-- `t` is `s` after the transport failed the command `bytes` (R45): either the write failed after `k` bytes, or the
write was accepted and the flush failed. -/
def TransportFails (s : State) (bytes : List Byte) (t : State) : Prop :=
  (∃ k l, Link.next s.link = some (.fail k, l) ∧
    t = { s with link := l, out := s.out ++ bytes.take k, log := s.log ++ [.writeFail bytes (min k bytes.length)] })
  ∨ (∃ l₁ k l, Link.next s.link = some (.ok, l₁) ∧ Link.next l₁ = some (.fail k, l) ∧
    t = { s with link := l, out := s.out ++ bytes, log := s.log ++ [.write bytes, .flushFail] })

/-- The record of the host transaction `i` has the host opcode `hop`, whatever the parameters (R61). -/
def HasOpcode (i : Instr) (hop : Byte) : Prop := ∃ ops, ∀ cfg, encode cfg i = .transaction ⟨hop, ops⟩

/-- The host transaction `i` is a stand-alone command with host opcode `hop` that emits `bytes` (R174): in IDLE, with
a transport that accepts, it sends exactly those bytes and answers OK; in IDLE, with a transport that fails, it
answers TransportUnavailable and no RBC state changes; in IMAGE it answers SequenceError and nothing else changes. -/
def Standalone (i : Instr) (hop : Byte) (bytes : Config → List Byte) : Prop :=
  HasOpcode i hop ∧
  (∀ s l, s.session = .idle → Link.Accepts s.link l →
    exec i s = .next (answered (sent s (bytes s.cfg) l) .ok)) ∧
  (∀ s t, s.session = .idle → TransportFails s (bytes s.cfg) t →
    exec i s = .next (answered t .transportUnavailable)) ∧
  (∀ s m w, s.session = .image m w → exec i s = .next (answered s .sequenceError))

/-- `data` is the packed form of the rows of one band, `w` columns wide (R130 to R133): `density` bytes a column, the
columns in order, the row groups of a column in order, row `8g + i` of group `g` at bit `7 - i`, a dark cell a set
bit. -/
def Packed (rows : List Row) (v : Variant) (w : Nat) (data : List Byte) : Prop :=
  data.length = density v * w ∧
  ∀ x < w, ∀ g < density v, ∀ i < 8, ∃ b row c,
    data[density v * x + g]? = some b ∧ rows[8 * g + i]? = some row ∧ row[x]? = some c ∧
      b.getLsbD (7 - i) = decide (c = dark)

/-- The Image-band command of a mode code, a width and packed data (R70, R73, R173): the length field is the width,
low byte first. -/
def bandCommand (m : Byte) (w : U16) (data : List Byte) : List Byte :=
  [0x1B#8, 0x2A#8, m, BitVec.ofNat 8 (w.toNat % 256), BitVec.ofNat 8 (w.toNat / 256)] ++ data

/-- The host transaction `i`, with host opcode `hop`, brings the row `row` (R104 to R106, R136, R227). In IDLE it
answers SequenceError; a row of another length than `WIDTH` answers InvalidDimension; both change nothing else.
Otherwise the row becomes row `ROWCNT` of the band. If the band is not full yet, nothing is sent and the answer is OK.
If it is, the packed band is sent as one Image-band command before the answer, and the accumulator is cleared; a
transport that fails it ends the session. -/
def RowTransaction (i : Instr) (hop : Byte) (row : Row) : Prop :=
  HasOpcode i hop ∧
  (∀ s, s.session = .idle → exec i s = .next (answered s .sequenceError)) ∧
  (∀ s m w, s.session = .image m w → row.length ≠ w.toNat → exec i s = .next (answered s .invalidDimension)) ∧
  (∀ s m w v, s.inv = true → s.session = .image m w → variantOf s.cfg m = some v → row.length = w.toNat →
    s.rowcnt.toNat + 1 < rowlimit v →
    exec i s = .next (answered
      { s with band := s.band ++ [(s.rowcnt.toNat, row)], rowcnt := BitVec.ofNat 5 (s.rowcnt.toNat + 1) } .ok)) ∧
  (∀ s m w v, s.inv = true → s.session = .image m w → variantOf s.cfg m = some v → row.length = w.toNat →
    s.rowcnt.toNat + 1 = rowlimit v →
    ∃ data, Packed (s.band.map Prod.snd ++ [row]) v w.toNat data ∧
      (∀ l, Link.Accepts s.link l →
        exec i s = .next (answered { sent s (bandCommand m w data) l with rowcnt := 0#5, band := [] } .ok)) ∧
      (∀ t, TransportFails s (bandCommand m w data) t →
        exec i s = .next (answered (closed t) .transportUnavailable)))

/-- The device command `i` is the bytes `bytes` handed to the transport by exactly one `Emit` (R160): with a transport
that accepts, it sends them and nothing else changes; with one that fails, it answers TransportUnavailable, and an open
session is abandoned. -/
def OneEmit (i : Instr) (bytes : Config → List Byte) : Prop :=
  (∀ s l, Link.Accepts s.link l → exec i s = .next (sent s (bytes s.cfg) l)) ∧
  (∀ s t, s.session = .idle → TransportFails s (bytes s.cfg) t →
    exec i s = .next (answered t .transportUnavailable)) ∧
  (∀ s m w t, s.session = .image m w → TransportFails s (bytes s.cfg) t →
    exec i s = .next (answered (closed t) .transportUnavailable))

/-- Whether a host transaction is one of the three that are legal in an image session only (R224). -/
def imageOnly : Instr → Bool
  | .irowg _ => true
  | .irowm _ => true
  | .iend => true
  | _ => false

/-- The bytes `LOG` says the transport accepted (R43). -/
def acceptedBytes : List LogEntry → List Byte
  | [] => []
  | .write c :: rest => c ++ acceptedBytes rest
  | .writeFail c k :: rest => c.take k ++ acceptedBytes rest
  | .flush :: rest => acceptedBytes rest
  | .flushFail :: rest => acceptedBytes rest

/-- The log of commands that were each written and then flushed (R45). -/
def accepted (cs : List (List Byte)) : List LogEntry := (cs.map fun c => [LogEntry.write c, LogEntry.flush]).flatten

/-- Started in `s`, `i` hands the commands `cmds`, in order, to a transport that accepts everything, and each is written
and then flushed (R45). What `cmds` is for each instruction, the statements of its effect say. -/
def Sends (i : Instr) (s : State) (cmds : List (List Byte)) : Prop :=
  ∃ u, exec i { s with link := ⟨[], .ok⟩ } = .next u ∧ u.log = s.log ++ accepted cmds ∧ u.out = s.out ++ cmds.flatten

/-- The transport accepts and flushes the next `n` commands and goes on as `l'`. -/
def AcceptsEach : Nat → Link → Link → Prop
  | 0, l, l' => l = l'
  | n + 1, l, l' => ∃ l₁, Link.Accepts l l₁ ∧ AcceptsEach n l₁ l'

/-- The log of whole `Emit`s (R45): every write is followed at once by its flush, which may have failed, unless the
write itself failed, having delivered at most all of its bytes; no flush stands anywhere else. -/
def wholeEmits : List LogEntry → Bool
  | [] => true
  | .write _ :: .flush :: rest => wholeEmits rest
  | .write _ :: .flushFail :: rest => wholeEmits rest
  | .writeFail c k :: rest => decide (k ≤ c.length) && wholeEmits rest
  | _ => false

/-- `c` is the encoding of a well-formed device command (R3, R77) of at most `n` bytes. -/
def InGrammar (cfg : Config) (n : Nat) (c : List Byte) : Prop :=
  c.length ≤ n ∧ ∃ i : Instr, i.port = .device ∧ i.wellFormed cfg = true ∧ encode cfg i = .command c

/-- Every byte sequence that `LOG` says was handed to the transport is such a command. -/
def LogInGrammar (cfg : Config) (n : Nat) (log : List LogEntry) : Prop :=
  ∀ c, (.write c ∈ log ∨ ∃ k, .writeFail c k ∈ log) → InGrammar cfg n c

/-- Nothing waits at the device port: what is left to deliver comes from the host and the reset line (R60, log 9). -/
def hostOnly (s : State) : Bool :=
  s.input.all fun d =>
    match d with
    | .deliver (.command _) => false
    | _ => true

/-- The bytes of a device command's encoding (R66). A host transaction's record is no byte sequence (R61). -/
def commandBytes : Encoded → List Byte
  | .command bytes => bytes
  | .transaction _ => []

/-- A host opcode that R63 does not list (R65). -/
def Reserved (hop : Byte) : Prop :=
  hop.toNat = 0 ∨ (0x0D ≤ hop.toNat ∧ hop.toNat ≤ 0x0F) ∨ 0x14 ≤ hop.toNat

/-- The row a row transaction brings (R105, R106). -/
def rowOf : Instr → Option Row
  | .irowg samples => some (samples.map fun x => if x.toNat > 128 then light else dark)
  | .irowm p => some p
  | _ => none

/-- The rows of band `b` of an image, light rows filling the last one (R134). -/
def bandRows (rows : List Row) (v : Variant) (w b : Nat) : List Row :=
  let real := (rows.drop (rowlimit v * b)).take (rowlimit v)
  real ++ List.replicate (rowlimit v - real.length) (List.replicate w light)

/-- The number of bands of an image of `h` rows: `ceil(h / rowlimit)` (R189). -/
def bandCount (h : Nat) (v : Variant) : Nat := (h + rowlimit v - 1) / rowlimit v

end Sys2Proof.Claims

open Sys2Proof Sys2Proof.Machine Sys2Proof.Claims

/-! ### Stand-alone commands -/

/-- R175, R176, R177: PRST, CUT and PCUT. -/
def Obligations.PrstCutPcutEmitTheirCommand : Prop :=
  Standalone .prst 0x01#8 (fun _ => [0x1B#8, 0x40#8]) ∧
  Standalone .cut 0x02#8 (fun _ => [0x1B#8, 0x69#8]) ∧
  Standalone .pcut 0x03#8 (fun _ => [0x1B#8, 0x6D#8])

/-- R178, R179: LFR and PMODE pass their byte unchanged. -/
def Obligations.LfrPmodePassTheirByte : Prop :=
  ∀ x : Byte,
    Standalone (.lfr x) 0x04#8 (fun _ => [0x1B#8, 0x33#8, x]) ∧
    Standalone (.pmode x) 0x05#8 (fun _ => [0x1B#8, 0x21#8, x])

/-- R180, R181, R72: DBL and UL send 0x00 for 0 and 0x01 for any other byte. -/
def Obligations.DblUlSendABoolean : Prop :=
  ∀ x : Byte,
    Standalone (.dbl x) 0x06#8 (fun _ => [0x1B#8, 0x47#8, if x ≠ 0 then 0x01#8 else 0x00#8]) ∧
    Standalone (.ul x) 0x07#8 (fun _ => [0x1B#8, 0x2D#8, if x ≠ 0 then 0x01#8 else 0x00#8])

/-- R182, R183, R184, R185: the four barcode settings send the configured sub-command and their byte unchanged. -/
def Obligations.BarcodeSettingsPassTheirByte : Prop :=
  ∀ x : Byte,
    Standalone (.bch x) 0x08#8 (fun cfg => [0x1D#8, cfg.bcSubHeight, x]) ∧
    Standalone (.bcw x) 0x09#8 (fun cfg => [0x1D#8, cfg.bcSubWidth, x]) ∧
    Standalone (.bctp x) 0x0A#8 (fun cfg => [0x1D#8, cfg.bcSubTextPos, x]) ∧
    Standalone (.bcf x) 0x0B#8 (fun cfg => [0x1D#8, cfg.bcSubFont, x])

/-- R186, R74, R222: BCUPC keeps the ASCII digits in order; with 11 or 12 of them it is a stand-alone command that
prints them; with any other number it answers InvalidBarcodeLength in IDLE and SequenceError in IMAGE, with nothing
sent. -/
def Obligations.BcupcPrintsElevenOrTwelveDigits : Prop :=
  ∀ (c : List Byte) (digits : List Byte),
    c.length ≤ 255 → digits = c.filter (fun x => decide (0x30 ≤ x.toNat ∧ x.toNat ≤ 0x39)) →
    (digits.length = 11 ∨ digits.length = 12 →
      Standalone (.bcupc c) 0x0C#8
        (fun cfg => [0x1D#8, 0x6B#8, cfg.bcModeUpca] ++ digits ++ [0x00#8])) ∧
    (¬ (digits.length = 11 ∨ digits.length = 12) →
      (∀ s, s.session = .idle → exec (.bcupc c) s = .next (answered s .invalidBarcodeLength)) ∧
      (∀ s m w, s.session = .image m w → exec (.bcupc c) s = .next (answered s .sequenceError)))

/-! ### The image session -/

/-- R187, R78: IBEGIN's checks in order, the line-feed command, and the opened session; a transport failure opens none
and changes no RBC state. -/
def Obligations.IbeginOpensASession : Prop :=
  ∀ (m : Byte) (w : U16),
    HasOpcode (.ibegin m w) 0x10#8 ∧
    (∀ s m' w', s.session = .image m' w' → exec (.ibegin m w) s = .next (answered s .sequenceError)) ∧
    (∀ s, s.session = .idle → (w.toNat = 0 ∨ s.cfg.wmax.toNat < w.toNat) →
      exec (.ibegin m w) s = .next (answered s .invalidDimension)) ∧
    (∀ s, s.session = .idle → 1 ≤ w.toNat → w.toNat ≤ s.cfg.wmax.toNat →
      (∀ v, m ≠ s.cfg.modeCode v) → exec (.ibegin m w) s = .next (answered s .unsupportedMode)) ∧
    (∀ s v l, s.session = .idle → 1 ≤ w.toNat → w.toNat ≤ s.cfg.wmax.toNat → m = s.cfg.modeCode v →
      Link.Accepts s.link l →
      exec (.ibegin m w) s = .next (answered
        { sent s [0x1B#8, 0x33#8, 0x01#8] l with session := .image m w, rowcnt := 0#5, band := [] } .ok)) ∧
    (∀ s v t, s.session = .idle → 1 ≤ w.toNat → w.toNat ≤ s.cfg.wmax.toNat → m = s.cfg.modeCode v →
      TransportFails s [0x1B#8, 0x33#8, 0x01#8] t →
      exec (.ibegin m w) s = .next (answered t .transportUnavailable))

/-- R105, R100: IROWG brings one cell a sample, light above 128 and dark otherwise. -/
def Obligations.IrowgBringsAThresholdedRow : Prop :=
  ∀ samples : List Byte,
    RowTransaction (.irowg samples) 0x11#8 (samples.map fun x => if x.toNat > 128 then light else dark)

/-- R106: IROWM brings its cells unchanged. -/
def Obligations.IrowmBringsItsRow : Prop :=
  ∀ p : Row, RowTransaction (.irowm p) 0x12#8 p

/-- R188, R134: IEND answers SequenceError in IDLE. With no row left over it sends the Reset command and ends the
session. With rows left over it first sends the band they make with light rows below them. A transport failure of either
command ends the session, and after a failed band no Reset is sent. -/
def Obligations.IendPadsAndCloses : Prop :=
  HasOpcode .iend 0x13#8 ∧
  (∀ s, s.session = .idle → exec .iend s = .next (answered s .sequenceError)) ∧
  (∀ s m w l, s.session = .image m w → s.rowcnt = 0#5 → Link.Accepts s.link l →
    exec .iend s = .next (answered (closed (sent s [0x1B#8, 0x40#8] l)) .ok)) ∧
  (∀ s m w t, s.session = .image m w → s.rowcnt = 0#5 → TransportFails s [0x1B#8, 0x40#8] t →
    exec .iend s = .next (answered (closed t) .transportUnavailable)) ∧
  (∀ s m w v, s.inv = true → s.session = .image m w → variantOf s.cfg m = some v → s.rowcnt ≠ 0#5 →
    ∃ data,
      Packed (s.band.map Prod.snd ++ List.replicate (rowlimit v - s.rowcnt.toNat) (List.replicate w.toNat light))
        v w.toNat data ∧
      (∀ l₁ l₂, Link.Accepts s.link l₁ → Link.Accepts l₁ l₂ →
        exec .iend s = .next (answered (closed
          (sent (sent s (bandCommand m w data) l₁) [0x1B#8, 0x40#8] l₂)) .ok)) ∧
      (∀ t, TransportFails s (bandCommand m w data) t →
        exec .iend s = .next (answered (closed t) .transportUnavailable)) ∧
      (∀ l₁ t, Link.Accepts s.link l₁ → TransportFails (sent s (bandCommand m w data) l₁) [0x1B#8, 0x40#8] t →
        exec .iend s = .next (answered (closed t) .transportUnavailable)))

/-- R189, which the spec marks as its inference from R187, R188, R104 and R136: a whole image, from any idle state whose
transport accepts everything. After `j` rows exactly the first `j div rowlimit` bands have been sent, each by the row
that completes it. After IEND the output has grown by the line-feed command, every band of the image in order, the last
one padded with light rows, and the Reset command, each followed by one flush; that is `3 + ceil(H / rowlimit) * (5 +
density * W) + 2` bytes in `2 + ceil(H / rowlimit)` `Emit`s, and every transaction answered OK. -/
def Obligations.WholeImageIsSentBandByBand : Prop :=
  ∀ (s : State) (v : Variant) (w : U16) (lines : List Instr) (rows : List Row),
    s.inv = true → s.session = .idle → Link.allOk s.link = true → 1 ≤ w.toNat → w.toNat ≤ s.cfg.wmax.toNat →
    lines.map rowOf = rows.map some → (∀ row ∈ rows, row.length = w.toNat) →
    ∃ bands : List (List Byte),
      bands.length = bandCount rows.length v ∧
      (∀ b < bands.length, ∃ data,
        bands[b]? = some (bandCommand (s.cfg.modeCode v) w data) ∧
          Packed (bandRows rows v w.toNat b) v w.toNat data) ∧
      (∀ j ≤ lines.length, ∃ t,
        execAll (.ibegin (s.cfg.modeCode v) w :: lines.take j) s = .next t ∧
          t.out = s.out ++ [0x1B#8, 0x33#8, 0x01#8] ++ (bands.take (j / rowlimit v)).flatten) ∧
      ∃ t, execAll (printImg (s.cfg.modeCode v) w lines) s = .next t ∧
        t.out = s.out ++ [0x1B#8, 0x33#8, 0x01#8] ++ bands.flatten ++ [0x1B#8, 0x40#8] ∧
        t.log = s.log ++ accepted ([0x1B#8, 0x33#8, 0x01#8] :: (bands ++ [[0x1B#8, 0x40#8]])) ∧
        t.out.length = s.out.length + 3 + bandCount rows.length v * (5 + density v * w.toNat) + 2 ∧
        t.responses = s.responses ++ List.replicate (lines.length + 2) .ok ∧
        t.session = .idle ∧ t.rowcnt = 0#5 ∧ t.band = [] ∧ t.cfg = s.cfg ∧ t.input = s.input

/-! ### Device commands -/

/-- R160, R161 to R167: the ESC commands without data, each exactly one `Emit` of the bytes of its source row. That
these rows run on their own, and what they answer, is the model's choice (log 9, log 10). -/
def Obligations.EscCommandsAreOneEmit : Prop :=
  OneEmit .dReset (fun _ => [0x1B#8, 0x40#8]) ∧
  OneEmit .dCut (fun _ => [0x1B#8, 0x69#8]) ∧
  OneEmit .dPcut (fun _ => [0x1B#8, 0x6D#8]) ∧
  (∀ x : Byte, OneEmit (.dLfr x) (fun _ => [0x1B#8, 0x33#8, x]) ∧ OneEmit (.dPmode x) (fun _ => [0x1B#8, 0x21#8, x])) ∧
  (∀ on : Bool,
    OneEmit (.dDbl on) (fun _ => [0x1B#8, 0x47#8, if on then 0x01#8 else 0x00#8]) ∧
    OneEmit (.dUl on) (fun _ => [0x1B#8, 0x2D#8, if on then 0x01#8 else 0x00#8]))

/-- R160, R168 to R173: the barcode commands and the Image band, each exactly one `Emit`. That these rows run on their
own, and what they answer, is the model's choice (log 9, log 10). -/
def Obligations.BarcodeAndBandCommandsAreOneEmit : Prop :=
  (∀ x : Byte,
    OneEmit (.dBch x) (fun cfg => [0x1D#8, cfg.bcSubHeight, x]) ∧
    OneEmit (.dBcw x) (fun cfg => [0x1D#8, cfg.bcSubWidth, x]) ∧
    OneEmit (.dBctp x) (fun cfg => [0x1D#8, cfg.bcSubTextPos, x]) ∧
    OneEmit (.dBcf x) (fun cfg => [0x1D#8, cfg.bcSubFont, x])) ∧
  (∀ (mode : Byte) (digits : List Byte),
    OneEmit (.dBcprint mode digits) (fun _ => [0x1D#8, 0x6B#8, mode] ++ digits ++ [0x00#8])) ∧
  (∀ (m : Byte) (w : U16) (data : List Byte), OneEmit (.dImgband m w data) (fun _ => bandCommand m w data))

/-! ### Encoding -/

/-- 30_encoding.md R60, R63, R66 to R71: decoding the encoding of a well-formed instruction gives it back, for every
instruction, every operand and every legal configuration, at the port it stands at. -/
def Obligations.DecodeEncodeRoundTrip : Prop :=
  ∀ (cfg : Config) (i : Instr), cfg.wf = true → i.wellFormed cfg = true →
    decode cfg (encode cfg i) = .ok i ∧ (encode cfg i).port = i.port

/-- R75, and R76, which the spec marks as its inference from R66, R70, R71 and R74: the output, read from its start by
the first two bytes of each command, gives back the commands that were put in it, in order; packed data and digits are
skipped by their length and never taken for escapes. -/
def Obligations.OutputStreamParsesBack : Prop :=
  ∀ (cfg : Config) (cs : List Instr), cfg.wf = true →
    (∀ i ∈ cs, i.port = .device ∧ i.wellFormed cfg = true) →
    decodeStream cfg (cs.map fun i => commandBytes (encode cfg i)).flatten = .ok cs

/-- A few words of the opcode table and of 95_test_vectors.md, written out, under the suggested instance (log 2): that
`1D 68 50` is Barcode height is that instance's. The form of the bytes on the wire is log 1's, the numbering of the
table's word log 16's. -/
def Obligations.WrittenOutWordsDecode : Prop :=
  decode Config.suggested (.transaction ⟨0x01#8, []⟩) = .ok .prst ∧
  decode Config.suggested (.transaction ⟨0x04#8, [.u8 0xFF#8]⟩) = .ok (.lfr 0xFF#8) ∧
  decode Config.suggested (.transaction ⟨0x10#8, [.u8 0x00#8, .u16 300#16]⟩) = .ok (.ibegin 0x00#8 300#16) ∧
  decodeWire byteFraming [0x10#8, 0x00#8, 0x2C#8, 0x01#8] = .ok (.ibegin 0x00#8 300#16) ∧
  decodeWire byteFraming [0x12#8, 0x03#8, 0x00#8, 0x00#8, 0x01#8, 0x00#8] = .ok (.irowm [dark, light, dark]) ∧
  decode Config.suggested (.transaction ⟨0x0D#8, []⟩) = .error (.reservedOpcode 0x0D#8) ∧
  decode Config.suggested (.command [0x1B#8, 0x40#8]) = .ok .dReset ∧
  decode Config.suggested (.command [0x1D#8, 0x68#8, 0x50#8]) = .ok (.dBch 0x50#8) ∧
  decode Config.suggested (.command [0x1B#8, 0x2A#8, 0x00#8, 0x02#8, 0x00#8, 0x80#8, 0x00#8])
    = .ok (.dImgband 0x00#8 2#16 [0x80#8, 0x00#8]) ∧
  decodeTableWord 16 0x1B69 = some .dCut

/-- R73, R46: the length field of the Image band is the width, low byte first, and the two bytes give it back. -/
def Obligations.LengthFieldIsTheWidth : Prop :=
  ∀ (m : Byte) (w : U16) (data : List Byte),
    imageBand m w data = bandCommand m w data ∧
    (lowByte w).toNat = w.toNat % 256 ∧ (highByte w).toNat = w.toNat / 256 ∧
    (lowByte w).toNat + 256 * (highByte w).toNat = w.toNat

/-! ### Steps -/

/-- A step runs the decoded instruction: what is delivered and decodes to `i` is executed by `exec`, with the
delivery taken from the input and nothing else changed before it (R21, R60, R61). -/
def Obligations.StepRunsTheDecodedInstruction : Prop :=
  ∀ (s : State) (e : Encoded) (rest : List Delivery) (i : Instr),
    s.input = .deliver e :: rest → decode s.cfg e = .ok i →
    step s = exec i { s with input := rest }

/-- R65: a reserved host opcode, with whatever operands, in either session state, changes no state, emits nothing
and answers UnsupportedOperation. -/
def Obligations.ReservedOpcodeAnswersUnsupported : Prop :=
  ∀ (s : State) (hop : Byte) (ops : List Operand) (rest : List Delivery),
    s.input = .deliver (.transaction ⟨hop, ops⟩) :: rest → Reserved hop →
    step s = .next (answered { s with input := rest } .unsupportedOperation)

/-- 60_exceptions.md R239: with nothing delivered the RBC holds its state. That a step with no delivery is a step at all
is the model's choice (log 11). -/
def Obligations.IdleStepHoldsTheState : Prop :=
  ∀ s : State, s.input = [] → step s = .next s

/-- The word of a table row placed by `withFetchWord` is what the next step runs (log 16, log 18). -/
def Obligations.FetchWordIsRunNext : Prop :=
  ∀ (s : State) (nbits word : Nat) (i : Instr),
    decode s.cfg (tableEncoded nbits word) = .ok i →
    step (s.withFetchWord nbits word) = exec i s

/-! ### Reset -/

/-- R34: the state after reset. (The configuration, the input and the link of `State.reset` are the model's choices, log
2, log 3, log 11, and no part of this statement.) -/
def Obligations.ResetStateIsAsTabled : Prop :=
  State.reset.session = .idle ∧ State.reset.session.mode = none ∧ State.reset.session.width = none ∧
  State.reset.rowcnt = 0#5 ∧ State.reset.band = [] ∧ State.reset.resp = none ∧
  State.reset.out = [] ∧ State.reset.log = [] ∧
  ∀ (s : State) (rest : List Delivery), s.input = .reset :: rest →
    step s = .next (atReset { s with input := rest })

/-- R251: a reset during a transaction, for every instruction and every state. Cut before its response, a transaction
leaves what it did to the output and the RBC at reset, with no response. Cut in the write of any of its commands, the
commands before it are in `OUT` and it is up to some byte; cut in the flush, it is whole; the RBC is at reset, and
nothing else changes. And a host transaction that gives no response was cut in one of these two ways, in one of the
commands it sends. (At which points a reset may arrive, and that a cut write has no entry in `LOG`, is log 8's.) -/
def Obligations.ResetCutsATransaction : Prop :=
  (∀ (s t : State) (r : HostRecord) (rest : List Delivery) (i : Instr),
    s.input = .cut r :: rest → decode s.cfg (.transaction r) = .ok i → exec i { s with input := rest } = .next t →
    step s = .next (atReset { t with responses := s.responses })) ∧
  (∀ (i : Instr) (s : State) (earlier later : List (List Byte)) (c : List Byte) (k : Nat) (l₁ l : Link),
    Sends i s (earlier ++ c :: later) → AcceptsEach earlier.length s.link l₁ → Link.next l₁ = some (.reset k, l) →
    exec i s = .next (atReset
      { s with link := l, out := s.out ++ earlier.flatten ++ c.take k, log := s.log ++ accepted earlier })) ∧
  (∀ (i : Instr) (s : State) (earlier later : List (List Byte)) (c : List Byte) (k : Nat) (l₁ l₂ l : Link),
    Sends i s (earlier ++ c :: later) → AcceptsEach earlier.length s.link l₁ → Link.next l₁ = some (.ok, l₂) →
    Link.next l₂ = some (.reset k, l) →
    exec i s = .next (atReset
      { s with link := l, out := s.out ++ earlier.flatten ++ c, log := s.log ++ accepted earlier ++ [.write c] })) ∧
  (∀ (i : Instr) (s t : State), i.port = .host → exec i s = .next t → t.responses = s.responses →
    Link.noReset s.link = false ∧ ∃ earlier c later, Sends i s (earlier ++ c :: later) ∧
      ((∃ k l, t = atReset
          { s with link := l, out := s.out ++ earlier.flatten ++ c.take k, log := s.log ++ accepted earlier }) ∨
       (∃ l, t = atReset
          { s with link := l, out := s.out ++ earlier.flatten ++ c, log := s.log ++ accepted earlier ++ [.write c] })))

/-- R62, R251: a host transaction that goes through produces exactly one response; one that produces none was cut by a
reset, and leaves the RBC as after reset. -/
def Obligations.OneResponseUnlessReset : Prop :=
  ∀ (i : Instr) (s t : State), i.port = .host → exec i s = .next t →
    (∃ r, t.resp = some r ∧ t.responses = s.responses ++ [r]) ∨
    (Link.noReset s.link = false ∧ t = atReset t ∧ t.responses = s.responses)

/-! ### Errors -/

/-- R224: a host transaction delivered in the session state it is not legal in answers SequenceError, changes no state
and emits nothing. -/
def Obligations.OutOfSequenceAnswersSequenceError : Prop :=
  ∀ (i : Instr) (s : State), i.port = .host →
    (imageOnly i = true ∧ s.session = .idle ∨ imageOnly i = false ∧ ∃ m w, s.session = .image m w) →
    exec i s = .next (answered s .sequenceError)

/-- R225, which the spec marks as its inference from the transactions' pseudocode: an error other than
TransportUnavailable leaves all RBC state and `OUT` unchanged; only the response is
new. -/
def Obligations.ValidationErrorsChangeNothing : Prop :=
  ∀ (i : Instr) (s t : State) (r : Response), i.port = .host → exec i s = .next t →
    t.responses = s.responses ++ [r] → r ≠ .ok → r ≠ .transportUnavailable → t = answered s r

/-- R227: the effects of a transport failure. `LOG` has grown by the commands sent before, each written and flushed, and
then by the failed interaction, so no further `Emit` happened; of a failed write `k` bytes are in `OUT`, at most all, of
a failed flush all of them; an open session is abandoned, and with none open no RBC state changes. -/
def Obligations.TransportFailureEffects : Prop :=
  ∀ (i : Instr) (s t : State), i.port = .host → exec i s = .next t →
    t.responses = s.responses ++ [.transportUnavailable] →
    t.resp = some .transportUnavailable ∧
    t.session = .idle ∧
    (s.session = .idle → t.rowcnt = s.rowcnt ∧ t.band = s.band) ∧
    ((∃ m w, s.session = .image m w) → t.rowcnt = 0#5 ∧ t.band = []) ∧
    ∃ (earlier : List (List Byte)) (c : List Byte),
      (∃ k ≤ c.length, t.log = s.log ++ accepted earlier ++ [.writeFail c k] ∧
        t.out = s.out ++ earlier.flatten ++ c.take k) ∨
      (t.log = s.log ++ accepted earlier ++ [.write c, .flushFail] ∧ t.out = s.out ++ earlier.flatten ++ c)

/-- R44, R258: a transport that never answers the write, or never answers the flush, of any command of any instruction
leaves the RBC stuck, whatever it accepted before; no timeout. The stop is log 5's fault. -/
def Obligations.SilentTransportBlocks : Prop :=
  (∀ (i : Instr) (s : State) (earlier later : List (List Byte)) (c : List Byte) (l₁ : Link),
    Sends i s (earlier ++ c :: later) → AcceptsEach earlier.length s.link l₁ → Link.next l₁ = none →
    exec i s = .fault .transportBlocked) ∧
  (∀ (i : Instr) (s : State) (earlier later : List (List Byte)) (c : List Byte) (l₁ l₂ : Link),
    Sends i s (earlier ++ c :: later) → AcceptsEach earlier.length s.link l₁ → Link.next l₁ = some (.ok, l₂) →
    Link.next l₂ = none → exec i s = .fault .transportBlocked)

/-- R220: the response codes, and code 7 is never produced. -/
def Obligations.ResponseCodesAsTabled : Prop :=
  Response.code .ok = 0 ∧ Response.code .invalidDimension = 1 ∧ Response.code .invalidBarcodeLength = 2 ∧
  Response.code .transportUnavailable = 3 ∧ Response.code .unsupportedMode = 4 ∧ Response.code .sequenceError = 5 ∧
  Response.code .unsupportedOperation = 6 ∧ ∀ r, Response.code r ≠ 7

/-! ### Packing -/

/-- R24: the mode functions, for every legal `MODE_CODE`; a byte that is no mode code has none. -/
def Obligations.ModeFunctionsAsTabled : Prop :=
  ∀ cfg : Config, cfg.wf = true →
    (∀ v, variantOf cfg (cfg.modeCode v) = some v) ∧
    (∀ m, (∀ v, m ≠ cfg.modeCode v) → variantOf cfg m = none) ∧
    (∀ v, rowlimit v = (if v = .LL ∨ v = .HL then 8 else 24) ∧ density v = (if v = .LL ∨ v = .HL then 1 else 3))

/-- R130: where the eight cells of a row group hold values, `PackByte` is a byte whose bit `7 - i` is set exactly when
the cell of row `8g + i` is dark. -/
def Obligations.PackByteInvertsEachLane : Prop :=
  ∀ (s : State) (g x : Nat), (∀ i < 8, ∃ c, bandRead s (8 * g + i) x = some c) →
    ∃ b, packByte s g x = some b ∧
      ∀ i < 8, ∃ c, bandRead s (8 * g + i) x = some c ∧ b.getLsbD (7 - i) = decide (c = dark)

/-- R131, R132: where every cell of the band holds a value, `PackBand` gives `density * WIDTH` bytes, and byte
`density * x + g` is `PackByte(g, x)`. -/
def Obligations.PackBandOrderAndLength : Prop :=
  ∀ (s : State) (v : Variant) (w : U16),
    (∀ r < rowlimit v, ∀ x < w.toNat, ∃ c, bandRead s r x = some c) →
    ∃ data, packBand s v w = some data ∧ data.length = density v * w.toNat ∧
      ∀ x < w.toNat, ∀ g < density v, data[density v * x + g]? = packByte s g x

/-- R135, which the spec marks as its inference from R130: columns all dark pack to 0xFF, columns all light to 0x00. -/
def Obligations.PolarityOfUniformBands : Prop :=
  ∀ (s : State) (v : Variant) (w : U16) (c : Cell),
    (∀ r < rowlimit v, ∀ x < w.toNat, bandRead s r x = some c) →
    packBand s v w = some (List.replicate (density v * w.toNat) (if c = dark then 0xFF#8 else 0x00#8))

/-- R134: `PadBand` fills rows `ROWCNT` to `rowlimit - 1` with light rows, sets `ROWCNT` to `rowlimit`, and changes
nothing else. -/
def Obligations.PadBandAddsLightRows : Prop :=
  ∀ (s : State) (v : Variant) (w : U16), s.rowcnt.toNat < rowlimit v →
    (padBand w v s).rowcnt.toNat = rowlimit v ∧
    (∀ r, s.rowcnt.toNat ≤ r → r < rowlimit v → ∀ x < w.toNat, bandRead (padBand w v s) r x = some light) ∧
    (∀ r x, (r < s.rowcnt.toNat ∨ rowlimit v ≤ r) → bandRead (padBand w v s) r x = bandRead s r x) ∧
    padBand w v s = { s with band := (padBand w v s).band, rowcnt := (padBand w v s).rowcnt }

/-- R40, R41: a cell reads as it was last written; every other row reads as before; a read has no side effect. -/
def Obligations.BandReadsWhatWasWritten : Prop :=
  ∀ (s : State) (r r' x : Nat) (row : Row),
    bandRead (bandWrite s r row) r' x = (if r' = r then row[x]? else bandRead s r' x)

/-! ### Whole-machine rules -/

/-- R29, which the spec marks as its inference from the rules that write the state, holds after reset. `State.inv` also
asks for R6's constraints, for rows of `WIDTH` cells, and that no other cell of `BAND` holds a value (log 6). -/
def Obligations.ResetKeepsR29 : Prop := State.reset.inv = true

/-- R29 (the same invariant) is kept by every step. -/
def Obligations.EveryStepKeepsR29 : Prop :=
  ∀ s t : State, s.inv = true → step s = .next t → t.inv = true

/-- R30, which the spec marks as its inference: from a state of R29 no step reads what holds no value or leaves the
precondition of a primitive; it goes on, or the transport never answers, or the delivery was no record. -/
def Obligations.NoStepReadsUndefinedState : Prop :=
  ∀ s : State, s.inv = true → SafeOutcome (step s)

/-- From a state of R29 whose transport answers everything, every instruction answers a next state. -/
def Obligations.EveryInstructionCompletes : Prop :=
  ∀ (s : State) (i : Instr), s.inv = true → s.link.tail ≠ .silent → ∃ t, exec i s = .next t

/-- R53, R43: a step only appends to `OUT`, to `LOG` and to the response sequence; nothing, not even a reset, takes
anything back. -/
def Obligations.HistoriesOnlyGrow : Prop :=
  ∀ s t : State, step s = .next t → s.out <+: t.out ∧ s.log <+: t.log ∧ s.responses <+: t.responses

/-- R43: in a run without a reset during a transport interaction, `LOG` accounts for every byte of `OUT`. -/
def Obligations.LogAccountsForOutput : Prop :=
  ∀ s t : State, Link.noReset s.link = true → s.out = acceptedBytes s.log → step s = .next t →
    Link.noReset t.link = true ∧ t.out = acceptedBytes t.log

/-- R45, R54: in such a run `LOG` is a sequence of whole `Emit`s: one write, then one flush, or one failed write. -/
def Obligations.EveryCommandIsWrittenThenFlushed : Prop :=
  ∀ s t : State, Link.noReset s.link = true → wholeEmits s.log = true → step s = .next t →
    Link.noReset t.link = true ∧ wholeEmits t.log = true

/-- R3, R77, R260: whatever the host delivers, everything handed to the transport is a well-formed device command, and
no longer than the longest Image band or, where `WMAX` is below 4, the longest barcode print (log 17). `LOG` says so of
every write that got its answer; and since a write that a reset cuts has no entry there (log 8), the bytes a step adds
to `OUT` are themselves whole such commands and then at most an initial part of one more. -/
def Obligations.OutputStaysInTheGrammar : Prop :=
  ∀ s t : State, s.inv = true → hostOnly s = true →
    LogInGrammar s.cfg (max 16 (5 + 3 * s.cfg.wmax.toNat)) s.log → step s = .next t →
    t.inv = true ∧ hostOnly t = true ∧ t.cfg = s.cfg ∧
      LogInGrammar t.cfg (max 16 (5 + 3 * t.cfg.wmax.toNat)) t.log ∧
      ∃ (whole : List (List Byte)) (last : List Byte) (k : Nat),
        (∀ c ∈ whole ++ [last], InGrammar t.cfg (max 16 (5 + 3 * t.cfg.wmax.toNat)) c) ∧
        t.out = s.out ++ whole.flatten ++ last.take k

/-- R28, R43, R232: no instruction reads `RESP`, the response sequence, `OUT` or `LOG`. From two states that differ in
nothing else it does the same: the same stop, or next states that again differ in nothing else and have grown by the
same output, log entries and responses. -/
def Obligations.NothingReadsTheHistories : Prop :=
  ∀ (i : Instr) (s : State) (o : List Byte) (l : List LogEntry) (q : Option Response) (r : List Response),
    (∀ f, exec i s = .fault f → exec i { s with out := o, log := l, resp := q, responses := r } = .fault f) ∧
    (∀ t, exec i s = .next t → ∃ dOut dLog dResp q',
      t.out = s.out ++ dOut ∧ t.log = s.log ++ dLog ∧ t.responses = s.responses ++ dResp ∧
      (dResp ≠ [] → q' = t.resp) ∧
      exec i { s with out := o, log := l, resp := q, responses := r }
        = .next { t with out := o ++ dOut, log := l ++ dLog, resp := q', responses := r ++ dResp })

/-- R32: no instruction changes the parameters or what the host will deliver; no step changes the parameters. -/
def Obligations.ParametersAreFixed : Prop :=
  (∀ (i : Instr) (s t : State), exec i s = .next t → t.cfg = s.cfg ∧ t.input = s.input) ∧
  (∀ s t : State, step s = .next t → t.cfg = s.cfg)

/-- R23, R24, R25: only IBEGIN opens a session, with its own mode and width; inside a session `MODE` and `WIDTH` do not
change; and a session ends only by IEND, by a transport failure or by a reset. -/
def Obligations.SessionTransitions : Prop :=
  ∀ (i : Instr) (s t : State), exec i s = .next t →
    (∀ m w, s.session = .idle → t.session = .image m w → i = .ibegin m w) ∧
    (∀ m w, s.session = .image m w →
      t.session = .image m w ∨
      (t.session = .idle ∧
        (i = .iend ∨ t.responses = s.responses ++ [.transportUnavailable] ∨
          (Link.noReset s.link = false ∧ t = atReset t ∧ t.responses = s.responses))))

/-- R174: a stand-alone command reads and writes none of `MODE`, `WIDTH`, `ROWCNT` and `BAND`, unless a reset cuts
it. -/
def Obligations.StandaloneCommandsLeaveTheSession : Prop :=
  ∀ (i : Instr) (s t : State), i.port = .host → imageOnly i = false → (∀ m w, i ≠ .ibegin m w) →
    exec i s = .next t → t.responses ≠ s.responses →
    t.session = s.session ∧ t.rowcnt = s.rowcnt ∧ t.band = s.band

/-! ### Host records and their framing -/

/-- R61, R63, R65: every record has one meaning. A reserved host opcode is refused as such whatever operands come with
it; a whole record decodes to a well-formed host transaction whose record it is; one with other operands than R63's is
refused as that (log 13). -/
def Obligations.EveryRecordHasOneMeaning : Prop :=
  ∀ r : HostRecord,
    (Reserved r.hop → decodeHost r = .error (.reservedOpcode r.hop)) ∧
    (¬ Reserved r.hop → r.whole = true → ∃ i, decodeHost r = .ok i ∧ i.port = .host ∧
      ∀ cfg, i.wellFormed cfg = true ∧ encode cfg i = .transaction r) ∧
    (¬ Reserved r.hop → r.whole = false → decodeHost r = .error (.wrongOperands r.hop))

/-- R6, R61: `HOST_FRAMING` is a parameter, and no rule depends on it. Under every framing that carries whole records,
whatever travels on the wire, the RBC decodes and executes what the host sent; what it does is the step on the record
itself, in which no framing stands. -/
def Obligations.NoRuleDependsOnHostFraming : Prop :=
  ∀ (Wire : Type) (F : HostFraming Wire), F.Faithful →
    (∀ (s : State) (i : Instr) (r : HostRecord),
      i.wellFormed s.cfg = true → encode s.cfg i = .transaction r →
      decodeWire F (F.carry r) = .ok i ∧ takeWire F (F.carry r) s = exec i s) ∧
    (∀ (s : State) (r : HostRecord) (rest : List Delivery),
      r.whole = true → s.input = .deliver (.transaction r) :: rest →
      step s = takeWire F (F.carry r) { s with input := rest })

/-- The byte framing, which is the model's own instance of `HOST_FRAMING` (log 1), is one: every whole record arrives as
it was sent, and what its bytes are read as is whole and has no other bytes. -/
def Obligations.ByteFramingIsFaithful : Prop :=
  byteFraming.Faithful ∧
  ∀ (bytes : List Byte) (r : HostRecord), byteFraming.read bytes = some r →
    r.whole = true ∧ byteFraming.carry r = bytes
end

