-- ==== Sys2Proof/Laws/Band.lean ====
section
/-! SUPPORT. The laws of the band buffer: a read after a write, and the canonical form under every operation. -/

namespace Sys2Proof.Machine

/-- A row reads as it was written (R40, R41). -/
@[simp] theorem Memory.read_write_same (m : Memory) (r : Nat) (row : Row) :
    Memory.read (Memory.write m r row) r = some row := by
  induction m with
  | nil => simp [Memory.write, Memory.read]
  | cons e rest ih =>
    obtain ⟨r', row'⟩ := e
    simp only [Memory.write]
    split
    · simp [Memory.read]
    · split
      · simp [Memory.read]
      · simp [Memory.read, *]

/-- A write leaves every other row alone (R40). -/
theorem Memory.read_write_other (m : Memory) {r r' : Nat} (row : Row) (h : r' ≠ r) :
    Memory.read (Memory.write m r row) r' = Memory.read m r' := by
  have h' : r ≠ r' := fun e => h e.symm
  induction m with
  | nil => simp [Memory.write, Memory.read, h']
  | cons e rest ih =>
    obtain ⟨a, row'⟩ := e
    simp only [Memory.write]
    split
    · simp [Memory.read, h']
    · split
      · rename_i hne
        subst hne
        simp [Memory.read, h']
      · simp [Memory.read, ih]

/-- The head of a written buffer is the written row or the old head. -/
theorem Memory.write_head (e : Nat × Row) (rest : Memory) (r : Nat) (row : Row) :
    ∃ tail, Memory.write (e :: rest) r row = (if r < e.1 then (r, row) else if e.1 = r then (r, row) else e) :: tail := by
  obtain ⟨a, row'⟩ := e
  simp only [Memory.write]
  split
  · exact ⟨_, rfl⟩
  · split <;> exact ⟨_, rfl⟩

/-- A write keeps the rows' order (R27). -/
theorem Memory.rising_write (m : Memory) (r : Nat) (row : Row) (h : Memory.rising m = true) :
    Memory.rising (Memory.write m r row) = true := by
  induction m with
  | nil => rfl
  | cons e rest ih =>
    obtain ⟨a, row'⟩ := e
    simp only [Memory.write]
    split
    · rename_i hlt
      simp [Memory.rising, hlt, h]
    · split
      · rename_i heq
        subst heq
        cases rest with
        | nil => rfl
        | cons b tail => simpa [Memory.rising] using h
      · rename_i hnlt hne
        cases rest with
        | nil =>
          have : a < r := by omega
          simp [Memory.write, Memory.rising, this]
        | cons b tail =>
          simp only [Memory.rising, Bool.and_eq_true, decide_eq_true_eq] at h
          have ih' := ih h.2
          obtain ⟨tl, htl⟩ := Memory.write_head b tail r row
          rw [htl] at ih' ⊢
          simp only [Memory.rising, Bool.and_eq_true, decide_eq_true_eq]
          refine ⟨?_, ih'⟩
          split
          · omega
          · split
            · simp; omega
            · exact h.1

/-- A write keeps the bound on the row numbers (R27). -/
theorem Memory.all_write (m : Memory) (r : Nat) (row : Row) (n : Nat) (hr : r < n)
    (h : (m.all fun e => decide (e.1 < n)) = true) :
    ((Memory.write m r row).all fun e => decide (e.1 < n)) = true := by
  induction m with
  | nil => simp [Memory.write, hr]
  | cons e rest ih =>
    obtain ⟨a, row'⟩ := e
    simp only [List.all_cons, Bool.and_eq_true, decide_eq_true_eq] at h
    simp only [Memory.write]
    split
    · simpa [hr, h.1] using h.2
    · split
      · simpa [hr] using h.2
      · simpa [h.1] using ih h.2

/-- A write of a row of the band keeps the canonical form. -/
theorem Memory.wf_write (m : Memory) {r : Nat} (row : Row) (hr : r < 24) (h : Memory.wf m = true) :
    Memory.wf (Memory.write m r row) = true := by
  simp only [Memory.wf, Bool.and_eq_true] at h ⊢
  exact ⟨Memory.rising_write m r row h.1, Memory.all_write m r row 24 hr h.2⟩

/-- The empty buffer is in the canonical form. -/
theorem Memory.wf_nil : Memory.wf [] = true := rfl

/-- The band of the reset state is in the canonical form. -/
theorem Memory.wf_reset : Memory.wf State.reset.band = true := rfl

/-- A run of writes, as padding makes them, keeps the canonical form (R134). -/
theorem Memory.wf_foldl_write (row : Row) (rs : List Nat) (m : Memory) (hrs : ∀ r ∈ rs, r < 24)
    (h : Memory.wf m = true) : Memory.wf (rs.foldl (fun b r => Memory.write b r row) m) = true := by
  induction rs generalizing m with
  | nil => exact h
  | cons r rs ih =>
    exact ih _ (fun x hx => hrs x (List.mem_cons_of_mem _ hx))
      (Memory.wf_write m row (hrs r List.mem_cons_self) h)

/-- What a run of writes of one row leaves: that row where it wrote, the old buffer elsewhere. -/
theorem Memory.read_foldl_write (row : Row) (rs : List Nat) (m : Memory) (r : Nat) :
    Memory.read (rs.foldl (fun b r => Memory.write b r row) m) r
      = if r ∈ rs then some row else Memory.read m r := by
  induction rs generalizing m with
  | nil => simp
  | cons a rs ih =>
    rw [List.foldl_cons, ih]
    by_cases h1 : r ∈ rs
    · simp [h1]
    · by_cases h2 : r = a
      · subst h2; simp [h1]
      · simp [h1, h2, Memory.read_write_other m row h2]

/-- A row number above every listed one is appended: how the next row of a band is stored (R104). -/
theorem Memory.write_append (m : Memory) (r : Nat) (row : Row) (h : ∀ e ∈ m, e.1 < r) :
    Memory.write m r row = m ++ [(r, row)] := by
  induction m with
  | nil => rfl
  | cons e rest ih =>
    obtain ⟨a, row'⟩ := e
    have ha : a < r := h (a, row') List.mem_cons_self
    have h1 : ¬ r < a := by omega
    have h2 : ¬ a = r := by omega
    simp only [Memory.write, h1, h2, if_false, List.cons_append]
    rw [ih fun e he => h e (List.mem_cons_of_mem _ he)]

end Sys2Proof.Machine
end

