-- ==== Sys2Proof/Laws/State.lean ====
section
/-! SUPPORT. One lemma for each field of State under each named update, so that no later proof unfolds a record update.
What an operation leaves alone is read off the lemma of the field. -/

namespace Sys2Proof.Machine

/-! ### The updates that are plain records -/

@[simp] theorem bandWrite_session (r : Nat) (row : Row) (s : State) : (bandWrite s r row).session = s.session := rfl
@[simp] theorem bandWrite_rowcnt (r : Nat) (row : Row) (s : State) : (bandWrite s r row).rowcnt = s.rowcnt := rfl
@[simp] theorem bandWrite_band (r : Nat) (row : Row) (s : State) : (bandWrite s r row).band = Memory.write s.band r row := rfl
@[simp] theorem bandWrite_resp (r : Nat) (row : Row) (s : State) : (bandWrite s r row).resp = s.resp := rfl
@[simp] theorem bandWrite_out (r : Nat) (row : Row) (s : State) : (bandWrite s r row).out = s.out := rfl
@[simp] theorem bandWrite_log (r : Nat) (row : Row) (s : State) : (bandWrite s r row).log = s.log := rfl
@[simp] theorem bandWrite_responses (r : Nat) (row : Row) (s : State) : (bandWrite s r row).responses = s.responses := rfl
@[simp] theorem bandWrite_cfg (r : Nat) (row : Row) (s : State) : (bandWrite s r row).cfg = s.cfg := rfl
@[simp] theorem bandWrite_input (r : Nat) (row : Row) (s : State) : (bandWrite s r row).input = s.input := rfl
@[simp] theorem bandWrite_link (r : Nat) (row : Row) (s : State) : (bandWrite s r row).link = s.link := rfl

@[simp] theorem respond_session (r : Response) (s : State) : (respond r s).session = s.session := rfl
@[simp] theorem respond_rowcnt (r : Response) (s : State) : (respond r s).rowcnt = s.rowcnt := rfl
@[simp] theorem respond_band (r : Response) (s : State) : (respond r s).band = s.band := rfl
@[simp] theorem respond_resp (r : Response) (s : State) : (respond r s).resp = some r := rfl
@[simp] theorem respond_out (r : Response) (s : State) : (respond r s).out = s.out := rfl
@[simp] theorem respond_log (r : Response) (s : State) : (respond r s).log = s.log := rfl
@[simp] theorem respond_responses (r : Response) (s : State) : (respond r s).responses = s.responses ++ [r] := rfl
@[simp] theorem respond_cfg (r : Response) (s : State) : (respond r s).cfg = s.cfg := rfl
@[simp] theorem respond_input (r : Response) (s : State) : (respond r s).input = s.input := rfl
@[simp] theorem respond_link (r : Response) (s : State) : (respond r s).link = s.link := rfl

@[simp] theorem endSession_session (s : State) : (endSession s).session = .idle := rfl
@[simp] theorem endSession_rowcnt (s : State) : (endSession s).rowcnt = 0#5 := rfl
@[simp] theorem endSession_band (s : State) : (endSession s).band = [] := rfl
@[simp] theorem endSession_resp (s : State) : (endSession s).resp = s.resp := rfl
@[simp] theorem endSession_out (s : State) : (endSession s).out = s.out := rfl
@[simp] theorem endSession_log (s : State) : (endSession s).log = s.log := rfl
@[simp] theorem endSession_responses (s : State) : (endSession s).responses = s.responses := rfl
@[simp] theorem endSession_cfg (s : State) : (endSession s).cfg = s.cfg := rfl
@[simp] theorem endSession_input (s : State) : (endSession s).input = s.input := rfl
@[simp] theorem endSession_link (s : State) : (endSession s).link = s.link := rfl

@[simp] theorem resetRbc_session (s : State) : (resetRbc s).session = .idle := rfl
@[simp] theorem resetRbc_rowcnt (s : State) : (resetRbc s).rowcnt = 0#5 := rfl
@[simp] theorem resetRbc_band (s : State) : (resetRbc s).band = [] := rfl
@[simp] theorem resetRbc_resp (s : State) : (resetRbc s).resp = none := rfl
@[simp] theorem resetRbc_out (s : State) : (resetRbc s).out = s.out := rfl
@[simp] theorem resetRbc_log (s : State) : (resetRbc s).log = s.log := rfl
@[simp] theorem resetRbc_responses (s : State) : (resetRbc s).responses = s.responses := rfl
@[simp] theorem resetRbc_cfg (s : State) : (resetRbc s).cfg = s.cfg := rfl
@[simp] theorem resetRbc_input (s : State) : (resetRbc s).input = s.input := rfl
@[simp] theorem resetRbc_link (s : State) : (resetRbc s).link = s.link := rfl

@[simp] theorem padBand_session (w : U16) (v : Variant) (s : State) : (padBand w v s).session = s.session := rfl
@[simp] theorem padBand_rowcnt (w : U16) (v : Variant) (s : State) : (padBand w v s).rowcnt = BitVec.ofNat 5 (rowlimit v) := rfl
@[simp] theorem padBand_resp (w : U16) (v : Variant) (s : State) : (padBand w v s).resp = s.resp := rfl
@[simp] theorem padBand_out (w : U16) (v : Variant) (s : State) : (padBand w v s).out = s.out := rfl
@[simp] theorem padBand_log (w : U16) (v : Variant) (s : State) : (padBand w v s).log = s.log := rfl
@[simp] theorem padBand_responses (w : U16) (v : Variant) (s : State) : (padBand w v s).responses = s.responses := rfl
@[simp] theorem padBand_cfg (w : U16) (v : Variant) (s : State) : (padBand w v s).cfg = s.cfg := rfl
@[simp] theorem padBand_input (w : U16) (v : Variant) (s : State) : (padBand w v s).input = s.input := rfl
@[simp] theorem padBand_link (w : U16) (v : Variant) (s : State) : (padBand w v s).link = s.link := rfl

/-! ### The abandoning of a session and the raising of an error -/

theorem abandon_of_idle {s : State} (h : s.session = .idle) : abandon s = s := by
  simp [abandon, h]

theorem abandon_of_image {s : State} {m : Byte} {w : U16} (h : s.session = .image m w) :
    abandon s = endSession s := by
  simp [abandon, h]

@[simp] theorem abandon_session (s : State) : (abandon s).session = .idle := by
  unfold abandon
  split
  · assumption
  · rfl

@[simp] theorem abandon_resp (s : State) : (abandon s).resp = s.resp := by
  unfold abandon
  split <;> rfl

@[simp] theorem abandon_out (s : State) : (abandon s).out = s.out := by
  unfold abandon
  split <;> rfl

@[simp] theorem abandon_log (s : State) : (abandon s).log = s.log := by
  unfold abandon
  split <;> rfl

@[simp] theorem abandon_responses (s : State) : (abandon s).responses = s.responses := by
  unfold abandon
  split <;> rfl

@[simp] theorem abandon_cfg (s : State) : (abandon s).cfg = s.cfg := by
  unfold abandon
  split <;> rfl

@[simp] theorem abandon_input (s : State) : (abandon s).input = s.input := by
  unfold abandon
  split <;> rfl

@[simp] theorem abandon_link (s : State) : (abandon s).link = s.link := by
  unfold abandon
  split <;> rfl

/-- An error other than `TransportUnavailable` changes the response and nothing else (R225). -/
theorem raise_of_ne {k : Response} (h : k ≠ .transportUnavailable) (s : State) : raise k s = respond k s := by
  cases k <;> first | rfl | exact absurd rfl h

/-- A transport failure abandons an open session (R227). -/
theorem raise_transportUnavailable (s : State) :
    raise .transportUnavailable s = respond .transportUnavailable (abandon s) := rfl

@[simp] theorem raise_resp (k : Response) (s : State) : (raise k s).resp = some k := by cases k <;> rfl

@[simp] theorem raise_responses (k : Response) (s : State) : (raise k s).responses = s.responses ++ [k] := by
  cases k <;> simp [raise]

@[simp] theorem raise_out (k : Response) (s : State) : (raise k s).out = s.out := by cases k <;> simp [raise]

@[simp] theorem raise_log (k : Response) (s : State) : (raise k s).log = s.log := by cases k <;> simp [raise]

@[simp] theorem raise_cfg (k : Response) (s : State) : (raise k s).cfg = s.cfg := by cases k <;> simp [raise]

@[simp] theorem raise_input (k : Response) (s : State) : (raise k s).input = s.input := by cases k <;> simp [raise]

@[simp] theorem raise_link (k : Response) (s : State) : (raise k s).link = s.link := by cases k <;> simp [raise]

end Sys2Proof.Machine
end

