-- ==== Sys2Proof/Laws/Transport.lean ====
section
/-! SUPPORT. Everything an `Emit` can do (20_memory.md R45), said once. -/

namespace Sys2Proof.Machine

/-- A listed answer comes first. -/
@[simp] theorem Link.next_cons (a : Answer) (as : List Answer) (t : LinkTail) :
    Link.next ⟨a :: as, t⟩ = some (a, ⟨as, t⟩) := rfl

/-- With no listed answer left, a link that accepts everything answers `ok`. -/
@[simp] theorem Link.next_ok : Link.next ⟨[], .ok⟩ = some (.ok, ⟨[], .ok⟩) := rfl

/-- With no listed answer left, an unconnected link fails with no byte accepted. -/
@[simp] theorem Link.next_fail : Link.next ⟨[], .fail⟩ = some (.fail 0, ⟨[], .fail⟩) := rfl

/-- With no listed answer left, a silent link never answers. -/
@[simp] theorem Link.next_silent : Link.next ⟨[], .silent⟩ = none := rfl

/-- The states in which an `Emit` of `bytes` at `s` can end, by how it ends: it was accepted and flushed; the write
failed after `k` bytes; the flush failed; a reset cut the write after `k` bytes; a reset cut the flush; or no answer
came. -/
inductive EmitCase (bytes : List Byte) (s : State) : EmitResult → Prop
  | done (l : Link) : EmitCase bytes s
      (.done { s with link := l, out := s.out ++ bytes, log := s.log ++ [.write bytes, .flush] })
  | writeFailed (k : Nat) (l : Link) : EmitCase bytes s
      (.failed { s with link := l, out := s.out ++ bytes.take k, log := s.log ++ [.writeFail bytes (min k bytes.length)] })
  | flushFailed (l : Link) : EmitCase bytes s
      (.failed { s with link := l, out := s.out ++ bytes, log := s.log ++ [.write bytes, .flushFail] })
  | writeCut (k : Nat) (l : Link) : EmitCase bytes s (.cut { s with link := l, out := s.out ++ bytes.take k })
  | flushCut (l : Link) : EmitCase bytes s
      (.cut { s with link := l, out := s.out ++ bytes, log := s.log ++ [.write bytes] })
  | blocked : EmitCase bytes s .blocked

/-- Every `Emit` ends in one of those ways. -/
theorem emit_cases (bytes : List Byte) (s : State) : EmitCase bytes s (emit bytes s) := by
  unfold emit
  split
  · exact .blocked
  · unfold flushLink
    split
    · exact .blocked
    · simpa using EmitCase.done (bytes := bytes) (s := s) _
    · simpa using EmitCase.flushFailed (bytes := bytes) (s := s) _
    · exact .flushCut _
  · exact .writeFailed _ _
  · exact .writeCut _ _

/-- An `Emit` the transport accepts. -/
theorem emit_of_accepts (bytes : List Byte) {s : State} {l' : Link} (h : Link.Accepts s.link l') :
    emit bytes s
      = .done { s with link := l', out := s.out ++ bytes, log := s.log ++ [.write bytes, .flush] } := by
  obtain ⟨l₁, h1, h2⟩ := h
  simp [emit, flushLink, h1, h2]

/-- The rest of a transaction runs after an `Emit` the transport accepts. -/
theorem emitThen_of_accepts (bytes : List Byte) {s : State} {l' : Link} (k : State → Result)
    (h : Link.Accepts s.link l') :
    emitThen bytes s k
      = k { s with link := l', out := s.out ++ bytes, log := s.log ++ [.write bytes, .flush] } := by
  simp [emitThen, afterEmit, emit_of_accepts bytes h]

/-- A failed write raises `TransportUnavailable` with its prefix in `OUT` (R45, R227). -/
theorem emitThen_of_write_fail (bytes : List Byte) {s : State} {n : Nat} {l' : Link} (k : State → Result)
    (h : Link.next s.link = some (.fail n, l')) :
    emitThen bytes s k
      = .next (raise .transportUnavailable
          { s with link := l', out := s.out ++ bytes.take n, log := s.log ++ [.writeFail bytes (min n bytes.length)] }) := by
  simp [emitThen, afterEmit, emit, h]

/-- A failed flush raises `TransportUnavailable` with all the bytes in `OUT` (R45, R227). -/
theorem emitThen_of_flush_fail (bytes : List Byte) {s : State} {n : Nat} {l₁ l' : Link} (k : State → Result)
    (h1 : Link.next s.link = some (.ok, l₁)) (h2 : Link.next l₁ = some (.fail n, l')) :
    emitThen bytes s k
      = .next (raise .transportUnavailable
          { s with link := l', out := s.out ++ bytes, log := s.log ++ [.write bytes, .flushFail] }) := by
  simp [emitThen, afterEmit, emit, flushLink, h1, h2]

/-- How a transaction that starts with an `Emit` can answer a next state: the rest of it ran, or the transport failed,
or a reset cut it. -/
theorem emitThen_next {bytes : List Byte} {s t : State} {k : State → Result} (h : emitThen bytes s k = .next t) :
    (∃ l, k { s with link := l, out := s.out ++ bytes, log := s.log ++ [.write bytes, .flush] } = .next t)
    ∨ (∃ n l, t = raise .transportUnavailable
        { s with link := l, out := s.out ++ bytes.take n, log := s.log ++ [.writeFail bytes (min n bytes.length)] })
    ∨ (∃ l, t = raise .transportUnavailable
        { s with link := l, out := s.out ++ bytes, log := s.log ++ [.write bytes, .flushFail] })
    ∨ (∃ n l, t = resetRbc { s with link := l, out := s.out ++ bytes.take n })
    ∨ (∃ l, t = resetRbc { s with link := l, out := s.out ++ bytes, log := s.log ++ [.write bytes] }) := by
  unfold emitThen at h
  have hc := emit_cases bytes s
  generalize emit bytes s = e at h hc
  cases hc with
  | done l => exact .inl ⟨l, h⟩
  | writeFailed n l => exact .inr (.inl ⟨n, l, by simpa [afterEmit] using h.symm⟩)
  | flushFailed l => exact .inr (.inr (.inl ⟨l, by simpa [afterEmit] using h.symm⟩))
  | writeCut n l => exact .inr (.inr (.inr (.inl ⟨n, l, by simpa [afterEmit] using h.symm⟩)))
  | flushCut l => exact .inr (.inr (.inr (.inr ⟨l, by simpa [afterEmit] using h.symm⟩)))
  | blocked => simp [afterEmit] at h

end Sys2Proof.Machine
end

