-- ==== Sys2Proof/Laws/Exec.lean ====
section
/-! SUPPORT. What any instruction and any step can do, said once: a meaning checks, updates the session's own elements,
emits and answers; a step is one delivery. -/

namespace Sys2Proof.Machine

/-- `t` differs from `s` in the session's own elements only: SESSION, MODE, WIDTH, ROWCNT and BAND. -/
def SameButSession (s t : State) : Prop := t = { s with session := t.session, rowcnt := t.rowcnt, band := t.band }

/-- What a meaning started in `s` is built of: a stop; an update of the session's own elements and a response other than
TransportUnavailable; nothing at all; or such an update, one `Emit`, and the rest of the meaning. -/
inductive Built : State → Result → Prop
  | stop (s : State) (f : Fault) : Built s (.fault f)
  | answer (s t : State) (r : Response) (h : SameButSession s t) (hr : r ≠ .transportUnavailable) :
      Built s (.next (respond r t))
  | done (s : State) : Built s (.next s)
  | emit (s t : State) (bytes : List Byte) (k : State → Result) (h : SameButSession s t)
      (hk : ∀ u, Built u (k u)) : Built s (emitThen bytes t k)

theorem SameButSession.refl (s : State) : SameButSession s s := rfl

theorem built_standalone (bytes : List Byte) (s : State) : Built s (standalone bytes s) := by
  unfold standalone
  split
  · exact .answer s s .sequenceError rfl (by decide)
  · exact .emit s s _ _ rfl fun u => .answer u u .ok rfl (by decide)

theorem built_deviceCommand (bytes : List Byte) (s : State) : Built s (deviceCommand bytes s) :=
  .emit s s _ _ rfl fun u => .done u

theorem built_bandComplete (m : Byte) (w : U16) (v : Variant) {s t : State} (h : SameButSession s t)
    (k : State → Result) (hk : ∀ u u', SameButSession u u' → Built u (k u')) :
    Built s (bandComplete m w v t k) := by
  unfold bandComplete
  split
  · exact .stop _ _
  · exact .emit s t _ _ h fun u => hk _ _ rfl

theorem built_rowTransaction (row : Row) (s : State) : Built s (rowTransaction row s) := by
  unfold rowTransaction
  split
  · exact .answer s s .sequenceError rfl (by decide)
  · split
    · unfold acceptRow
      split
      · exact .stop _ _
      · split
        · dsimp only
          split
          · exact built_bandComplete _ _ _ (s := s) (t := { bandWrite s s.rowcnt.toNat row with rowcnt := s.rowcnt + 1#5 }) rfl _
              fun u u' h => .answer u u' .ok h (by decide)
          · exact .answer s _ .ok rfl (by decide)
        · exact .stop _ _
    · exact .answer s s .invalidDimension rfl (by decide)

theorem built_closeImage {s t : State} (h : SameButSession s t) : Built s (closeImage t) :=
  .emit s t _ _ h fun u => .answer u _ .ok rfl (by decide)

theorem built_iend (s : State) : Built s (execIend s) := by
  unfold execIend
  split
  · exact .answer s s .sequenceError rfl (by decide)
  · split
    · exact built_closeImage rfl
    · split
      · exact .stop _ _
      · split
        · exact built_bandComplete _ _ _ (s := s) (t := padBand _ _ s) rfl _ fun u u' h => built_closeImage h
        · exact .stop _ _

theorem built_bcupc (c : List Byte) (s : State) : Built s (execBcupc c s) := by
  unfold execBcupc
  split
  · exact .answer s s .sequenceError rfl (by decide)
  · split
    · exact .emit s s _ _ rfl fun u => .answer u u .ok rfl (by decide)
    · exact .answer s s .invalidBarcodeLength rfl (by decide)

theorem built_ibegin (m : Byte) (w : U16) (s : State) : Built s (execIbegin m w s) := by
  unfold execIbegin
  split
  · exact .answer s s .sequenceError rfl (by decide)
  · split
    · exact .answer s s .invalidDimension rfl (by decide)
    · split
      · exact .answer s s .unsupportedMode rfl (by decide)
      · exact .emit s s _ _ rfl fun u => .answer u _ .ok rfl (by decide)

/-- Every instruction's meaning is built so. -/
theorem exec_built (i : Instr) (s : State) : Built s (exec i s) := by
  cases i <;>
    first
    | exact built_standalone _ _
    | exact built_deviceCommand _ _
    | exact built_rowTransaction _ _
    | exact built_bcupc _ _
    | exact built_ibegin _ _ _
    | exact built_iend _

/-! ### The transport is read by `Emit` alone -/

/-- A meaning started in `s` that does not stop by itself, as a function of the transport's answers to come: it reads them
in its `Emit`s only, and which commands it emits, and how it ends after the last one, does not depend on them. -/
inductive Talks : State → (Link → Result) → Prop
  | answer (s t : State) (r : Response) (h : SameButSession s t) (hr : r ≠ .transportUnavailable) :
      Talks s fun l => .next (respond r { t with link := l })
  | done (s : State) : Talks s fun l => .next { s with link := l }
  | emit (s t : State) (bytes : List Byte) (k : State → Result) (h : SameButSession s t)
      (hk : Talks { t with out := t.out ++ bytes, log := t.log ++ [.write bytes, .flush] } fun l =>
        k { t with out := t.out ++ bytes, log := t.log ++ [.write bytes, .flush], link := l }) :
      Talks s fun l => emitThen bytes { t with link := l } k

/-- Such a meaning, or one that stops before its first `Emit`, whatever the transport would answer. -/
def StopsOrTalks (s : State) (g : Link → Result) : Prop := (∃ f, ∀ l, g l = .fault f) ∨ Talks s g

theorem Talks.of_eq {s : State} {f g : Link → Result} (h : Talks s f) (e : ∀ l, g l = f l) : Talks s g :=
  (funext e : g = f) ▸ h

theorem StopsOrTalks.of_eq {s : State} {f g : Link → Result} (h : StopsOrTalks s f) (e : ∀ l, g l = f l) :
    StopsOrTalks s g :=
  (funext e : g = f) ▸ h

theorem session_cases (s : State) : s.session = .idle ∨ ∃ m w, s.session = .image m w := by
  cases s.session <;> simp

theorem talks_raise (r : Response) (s : State) (hr : r ≠ .transportUnavailable) :
    Talks s fun l => .next (raise r { s with link := l }) :=
  (Talks.answer s s r rfl hr).of_eq fun _ => by rw [raise_of_ne hr]

theorem talks_emit_ok (bytes : List Byte) (s : State) (f : State → State) (hf : ∀ u, SameButSession u (f u))
    (hl : ∀ u l, f { u with link := l } = { f u with link := l }) :
    Talks s fun l => emitThen bytes { s with link := l } fun t => .next (respond .ok (f t)) :=
  .emit s s _ _ rfl ((Talks.answer _ _ .ok (hf _) (by decide)).of_eq fun l => by
    rw [← hl { s with out := s.out ++ bytes, log := s.log ++ [.write bytes, .flush] } l])

theorem talks_standalone (bytes : List Byte) (s : State) : Talks s fun l => standalone bytes { s with link := l } := by
  obtain hs | ⟨m, w, hs⟩ := session_cases s
  · exact (talks_emit_ok bytes s id (fun _ => rfl) fun _ _ => rfl).of_eq fun l => by simp only [standalone, hs, id]
  · exact (talks_raise .sequenceError s (by decide)).of_eq fun l => by simp only [standalone, hs]

theorem talks_deviceCommand (bytes : List Byte) (s : State) :
    Talks s fun l => deviceCommand bytes { s with link := l } :=
  .emit s s _ _ rfl (.done _)

theorem talks_bandComplete (m : Byte) (w : U16) (v : Variant) {s t : State} (h : SameButSession s t)
    (k : State → Result) (hk : ∀ u, Talks u fun l => k { u with rowcnt := 0#5, band := [], link := l }) :
    StopsOrTalks s fun l => bandComplete m w v { t with link := l } k := by
  cases hp : packBand t v w with
  | none =>
    exact .inl ⟨.undefinedRead, fun l => by
      simp only [bandComplete, show packBand { t with link := l } v w = none from hp]⟩
  | some data =>
    exact .inr ((Talks.emit s t (imageBand m w data) (fun u => k { u with rowcnt := 0#5, band := [] }) h
      (hk _)).of_eq fun l => by simp only [bandComplete, show packBand { t with link := l } v w = some data from hp])

theorem talks_acceptRow (m : Byte) (w : U16) (row : Row) (s : State) :
    StopsOrTalks s fun l => acceptRow m w row { s with link := l } := by
  cases hv : variantOf s.cfg m with
  | none => exact .inl ⟨.undefinedMode, fun l => by simp only [acceptRow, hv]⟩
  | some v =>
    by_cases hr : s.rowcnt.toNat < rowlimit v
    · by_cases hf : (s.rowcnt + 1#5).toNat = rowlimit v
      · have h := talks_bandComplete m w v (s := s)
          (t := { bandWrite s s.rowcnt.toNat row with rowcnt := s.rowcnt + 1#5 }) rfl (fun u => .next (respond .ok u))
          fun u => .answer u { u with rowcnt := 0#5, band := [] } .ok rfl (by decide)
        refine h.of_eq fun l => ?_
        simp only [acceptRow, hv, hr, hf, if_true]
        rfl
      · refine .inr ((Talks.answer s { bandWrite s s.rowcnt.toNat row with rowcnt := s.rowcnt + 1#5 } .ok rfl
          (by decide)).of_eq fun l => ?_)
        simp only [acceptRow, hv, hr, hf, if_true, if_false]
        rfl
    · exact .inl ⟨.rowOutOfRange, fun l => by simp only [acceptRow, hv, hr, if_false]⟩

theorem talks_rowTransaction (row : Row) (s : State) :
    StopsOrTalks s fun l => rowTransaction row { s with link := l } := by
  obtain hs | ⟨m, w, hs⟩ := session_cases s
  · exact .inr ((talks_raise .sequenceError s (by decide)).of_eq fun l => by simp only [rowTransaction, hs])
  · by_cases hl : row.length = w.toNat
    · exact (talks_acceptRow m w row s).of_eq fun l => by simp only [rowTransaction, hs, hl, if_true]
    · exact .inr ((talks_raise .invalidDimension s (by decide)).of_eq fun l => by
        simp only [rowTransaction, hs, hl, if_false])

theorem talks_closeImage (s : State) : Talks s fun l => closeImage { s with link := l } :=
  talks_emit_ok encReset s endSession (fun _ => rfl) fun _ _ => rfl

theorem talks_iend (s : State) : StopsOrTalks s fun l => execIend { s with link := l } := by
  obtain hs | ⟨m, w, hs⟩ := session_cases s
  · exact .inr ((talks_raise .sequenceError s (by decide)).of_eq fun l => by simp only [execIend, hs])
  · by_cases hz : s.rowcnt = 0#5
    · exact .inr ((talks_closeImage s).of_eq fun l => by simp only [execIend, hs, hz, if_true])
    · cases hv : variantOf s.cfg m with
      | none => exact .inl ⟨.undefinedMode, fun l => by simp only [execIend, hs, hz, hv, if_false]⟩
      | some v =>
        by_cases hr : s.rowcnt.toNat < rowlimit v
        · have h := talks_bandComplete m w v (s := s) (t := padBand w v s) rfl closeImage fun u =>
            Talks.emit u { u with rowcnt := 0#5, band := [] } _ _ rfl (.answer _ (endSession _) .ok rfl (by decide))
          refine h.of_eq fun l => ?_
          simp only [execIend, hs, hz, hv, hr, if_true, if_false]
          rw [← hs]
          rfl
        · exact .inl ⟨.rowOutOfRange, fun l => by simp only [execIend, hs, hz, hv, hr, if_false]⟩

theorem talks_bcupc (c : List Byte) (s : State) : Talks s fun l => execBcupc c { s with link := l } := by
  obtain hs | ⟨m, w, hs⟩ := session_cases s
  · by_cases hl : upcLengthOk (digitsOf c).length = true
    · exact (talks_emit_ok (encBarcodePrint s.cfg.bcModeUpca (digitsOf c)) s id (fun _ => rfl) fun _ _ => rfl).of_eq fun l => by
        simp only [execBcupc, hs, hl, if_true, id]
    · exact (talks_raise .invalidBarcodeLength s (by decide)).of_eq fun l => by simp [execBcupc, hs, hl]
  · exact (talks_raise .sequenceError s (by decide)).of_eq fun l => by simp only [execBcupc, hs]

theorem talks_ibegin (m : Byte) (w : U16) (s : State) : Talks s fun l => execIbegin m w { s with link := l } := by
  obtain hs | ⟨m', w', hs⟩ := session_cases s
  · by_cases hw : w = 0#16 ∨ s.cfg.wmax < w
    · exact (talks_raise .invalidDimension s (by decide)).of_eq fun l => by simp only [execIbegin, hs, hw, if_true]
    · cases hv : variantOf s.cfg m with
      | none => exact (talks_raise .unsupportedMode s (by decide)).of_eq fun l => by simp only [execIbegin, hs, hw, hv, if_false]
      | some v =>
        exact (talks_emit_ok (encLineFeedRate 0x01#8) s
          (fun t => { t with session := .image m w, rowcnt := 0#5, band := [] }) (fun _ => rfl) fun _ _ => rfl).of_eq
          fun l => by simp only [execIbegin, hs, hw, hv, if_false]
  · exact (talks_raise .sequenceError s (by decide)).of_eq fun l => by simp only [execIbegin, hs]

/-- Every instruction's meaning reads the transport so, and stops by itself only before its first `Emit`. -/
theorem exec_talks (i : Instr) (s : State) : StopsOrTalks s fun l => exec i { s with link := l } := by
  cases i
  case bch v => exact .inr (talks_standalone (encBarcodeHeight s.cfg v) s)
  case bcw v => exact .inr (talks_standalone (encBarcodeWidth s.cfg v) s)
  case bctp v => exact .inr (talks_standalone (encBarcodeTextPos s.cfg v) s)
  case bcf v => exact .inr (talks_standalone (encBarcodeFont s.cfg v) s)
  case dBch v => exact .inr (talks_deviceCommand (encBarcodeHeight s.cfg v) s)
  case dBcw v => exact .inr (talks_deviceCommand (encBarcodeWidth s.cfg v) s)
  case dBctp v => exact .inr (talks_deviceCommand (encBarcodeTextPos s.cfg v) s)
  case dBcf v => exact .inr (talks_deviceCommand (encBarcodeFont s.cfg v) s)
  all_goals
    first
    | exact .inr (talks_standalone _ _)
    | exact .inr (talks_deviceCommand _ _)
    | exact talks_rowTransaction _ _
    | exact .inr (talks_bcupc _ _)
    | exact .inr (talks_ibegin _ _ _)
    | exact talks_iend _

/-- How a delivered record can answer a next state: it is an instruction that does, or a reserved opcode. -/
theorem takeTransaction_next {r : HostRecord} {s t : State} (h : takeTransaction r s = .next t) :
    (∃ i, decode s.cfg (.transaction r) = .ok i ∧ exec i s = .next t) ∨ t = raise .unsupportedOperation s := by
  unfold takeTransaction at h
  split at h
  · exact .inl ⟨_, by assumption, h⟩
  · cases h
    exact .inr rfl
  · cases h

/-- How a delivered device command can answer a next state: it is an instruction that does. -/
theorem takeCommand_next {bytes : List Byte} {s t : State} (h : takeCommand bytes s = .next t) :
    ∃ i, decode s.cfg (.command bytes) = .ok i ∧ exec i s = .next t := by
  unfold takeCommand at h
  split at h
  · exact ⟨_, by assumption, h⟩
  · cases h

/-- How a cut transaction can answer a next state: the transaction did, and the RBC is as after reset. -/
theorem cutByReset_next {before t : State} {o : Result} (h : cutByReset before o = .next t) :
    ∃ u, o = .next u ∧ t = resetRbc { u with responses := before.responses } := by
  cases o with
  | next u =>
    cases h
    exact ⟨u, rfl, rfl⟩
  | fault f => cases h
  | refused r => cases h

/-- How a step can answer a next state: nothing is delivered and nothing changes, or the first delivery is taken. -/
theorem step_next {s t : State} (h : step s = .next t) :
    (s.input = [] ∧ t = s) ∨ ∃ d rest, s.input = d :: rest ∧ takeDelivery d { s with input := rest } = .next t := by
  unfold step at h
  split at h
  · cases h
    exact .inl ⟨by assumption, rfl⟩
  · exact .inr ⟨_, _, by assumption, h⟩

end Sys2Proof.Machine
end

