-- ==== Sys2Proof/Laws/Invariant.lean ====
section
/-! SUPPORT. The invariant of 10_state.md R29: what it says in each session state, and how it is met. -/

namespace Sys2Proof.Machine

/-- The invariant reads the parameters and the session's own elements only. -/
theorem inv_congr {s t : State} (h1 : t.cfg = s.cfg) (h2 : t.session = s.session) (h3 : t.rowcnt = s.rowcnt)
    (h4 : t.band = s.band) : t.inv = s.inv := by
  simp only [State.inv, h1, h2, h3, h4]

theorem inv_cfg {s : State} (h : s.inv = true) : s.cfg.wf = true := by
  unfold State.inv at h
  rw [Bool.and_eq_true] at h
  exact h.1

theorem inv_idle {s : State} (h : s.inv = true) (hs : s.session = .idle) : s.rowcnt = 0#5 ∧ s.band = [] := by
  simp [State.inv, hs] at h
  exact h.2

theorem inv_image {s : State} {m : Byte} {w : U16} (h : s.inv = true) (hs : s.session = .image m w) :
    ∃ v, variantOf s.cfg m = some v ∧ 1 ≤ w.toNat ∧ w.toNat ≤ s.cfg.wmax.toNat ∧ s.rowcnt.toNat < rowlimit v ∧
      s.band.map Prod.fst = List.range s.rowcnt.toNat ∧ ∀ row ∈ s.band.map Prod.snd, row.length = w.toNat := by
  simp only [State.inv, hs, Bool.and_eq_true] at h
  cases hv : variantOf s.cfg m with
  | none => simp [hv] at h
  | some v =>
    simp [hv] at h
    refine ⟨v, rfl, h.2.1.1.1.1, h.2.1.1.1.2, h.2.1.1.2, h.2.1.2, ?_⟩
    simp only [List.mem_map, Prod.exists, exists_eq_right, forall_exists_index]
    exact fun row r hr => h.2.2 r row hr

theorem inv_of_idle {s : State} (h : s.cfg.wf = true) (h1 : s.session = .idle) (h2 : s.rowcnt = 0#5)
    (h3 : s.band = []) : s.inv = true := by
  simp [State.inv, h, h1, h2, h3]

theorem inv_of_image {s : State} {m : Byte} {w : U16} {v : Variant} (h : s.cfg.wf = true)
    (hs : s.session = .image m w) (hv : variantOf s.cfg m = some v) (h1 : 1 ≤ w.toNat)
    (h2 : w.toNat ≤ s.cfg.wmax.toNat) (h3 : s.rowcnt.toNat < rowlimit v)
    (h4 : s.band.map Prod.fst = List.range s.rowcnt.toNat)
    (h5 : ∀ row ∈ s.band.map Prod.snd, row.length = w.toNat) : s.inv = true := by
  simp only [State.inv, hs, hv, h]
  simp only [Bool.and_eq_true, decide_eq_true_eq, Bool.true_and, List.all_eq_true]
  exact ⟨⟨⟨⟨h1, h2⟩, h3⟩, h4⟩, fun e he => h5 _ (List.mem_map_of_mem he)⟩

/-- Rows whose numbers run on from `k` are in the canonical form (R27). -/
theorem Memory.rising_of_range' (m : Memory) (k n : Nat) (h : m.map Prod.fst = List.range' k n) :
    Memory.rising m = true := by
  induction m generalizing k n with
  | nil => rfl
  | cons a rest ih =>
    cases n with
    | zero => simp at h
    | succ n =>
      simp only [List.map_cons, List.range'_succ, List.cons.injEq] at h
      cases rest with
      | nil => rfl
      | cons b tail =>
        have ih' := ih (k + 1) n h.2
        cases n with
        | zero => simp at h
        | succ n =>
          simp only [List.map_cons, List.range'_succ, List.cons.injEq] at h
          simp only [Memory.rising, Bool.and_eq_true, decide_eq_true_eq]
          exact ⟨by omega, ih'⟩

/-- A state of R29 keeps its band in the canonical form. -/
theorem inv_band_wf {s : State} (h : s.inv = true) : Memory.wf s.band = true := by
  cases hs : s.session with
  | idle =>
    rw [(inv_idle h hs).2]
    exact Memory.wf_nil
  | image m w =>
    obtain ⟨v, -, -, -, hlt, hb, -⟩ := inv_image h hs
    have h24 : rowlimit v ≤ 24 := by cases v <;> decide
    simp only [Memory.wf, Bool.and_eq_true, List.all_eq_true, decide_eq_true_eq]
    refine ⟨Memory.rising_of_range' _ 0 s.rowcnt.toNat (by rw [hb, List.range_eq_range']), fun e he => ?_⟩
    have : e.1 ∈ s.band.map Prod.fst := List.mem_map_of_mem he
    rw [hb, List.mem_range] at this
    omega

end Sys2Proof.Machine
end

