-- ==== Sys2Proof/Laws/Operands.lean ====
section
/-! SUPPORT. The laws of the operand forms and of the pieces of the decoder. -/

namespace Sys2Proof

/-- The two bytes of a 16-bit quantity give it back (R46). -/
@[simp] theorem word16_low_high (w : U16) : word16 (lowByte w) (highByte w) = w := by
  apply BitVec.eq_of_toNat_eq
  have := w.isLt
  simp only [word16, lowByte, highByte, BitVec.toNat_ofNat]
  omega

/-- Two bytes are the two bytes of the quantity they make (R46). -/
@[simp] theorem lowByte_word16 (lo hi : Byte) : lowByte (word16 lo hi) = lo := by
  apply BitVec.eq_of_toNat_eq
  have := lo.isLt
  have := hi.isLt
  simp only [word16, lowByte, BitVec.toNat_ofNat]
  omega

/-- See `lowByte_word16`. -/
@[simp] theorem highByte_word16 (lo hi : Byte) : highByte (word16 lo hi) = hi := by
  apply BitVec.eq_of_toNat_eq
  have := lo.isLt
  have := hi.isLt
  simp only [word16, highByte, BitVec.toNat_ofNat]
  omega

/-- A cell's byte gives it back (log 1). -/
@[simp] theorem cellOfByte_byteOfCell (c : Cell) : cellOfByte (byteOfCell c) = some c := by
  revert c
  decide

/-- The cells of a row's bytes are the row (log 1). -/
@[simp] theorem cellsOfBytes_map (p : Row) : cellsOfBytes (p.map byteOfCell) = some p := by
  induction p with
  | nil => rfl
  | cons c cs ih => simp [cellsOfBytes, ih]

/-- The length bytes of a sequence of at most 65535 elements give its length (R63). -/
theorem word16_lengthBytes {k : Nat} (h : k ≤ 65535) :
    (word16 (lowByte (BitVec.ofNat 16 k)) (highByte (BitVec.ofNat 16 k))).toNat = k := by
  simp only [word16_low_high, BitVec.toNat_ofNat]
  omega

/-- The bytes of an operand are read back as it, whatever follows (log 1). -/
theorem takeOperand_bytesOfOperand {kind : OperandKind} {o : Operand} (h : o.fits kind = true)
    (hk : ∀ n, kind = .bytes n ∨ kind = .cells n → n ≤ 65535) (rest : List Byte) :
    takeOperand kind (bytesOfOperand o ++ rest) = some (o, rest) := by
  cases kind with
  | u8 => cases o <;> first | rfl | cases h
  | u16 =>
    cases o with
    | u16 w => simp [takeOperand, bytesOfOperand]
    | _ => cases h
  | bytes n =>
    cases o with
    | bytes s =>
      have hn := hk n (.inl rfl)
      simp only [Operand.fits, decide_eq_true_eq] at h
      simp [takeOperand, bytesOfOperand, lengthBytes, -word16_low_high, word16_lengthBytes (h.trans hn)]
    | _ => cases h
  | cells n =>
    cases o with
    | cells p =>
      have hn := hk n (.inr rfl)
      simp only [Operand.fits, decide_eq_true_eq] at h
      have hl : p.length = (p.map byteOfCell).length := by simp
      simp only [takeOperand, bytesOfOperand, lengthBytes, List.cons_append, List.nil_append,
        word16_lengthBytes (h.trans hn)]
      rw [hl, List.take_left, List.drop_left]
      simp
    | _ => cases h

/-- The record of a well-formed host transaction is whole (R61, R63). -/
theorem whole_of_encode {cfg : Config} {i : Instr} {r : HostRecord} (hw : i.wellFormed cfg = true)
    (h : encode cfg i = .transaction r) : r.whole = true := by
  cases i <;> simp only [encode, Encoded.transaction.injEq, reduceCtorEq] at h <;> subst h <;>
    first
    | rfl
    | simpa [HostRecord.whole, operandKinds, operandsFit, Operand.fits, Instr.wellFormed] using hw

/-- Digit bytes hold no 0x00 (R76). -/
theorem ne_nul_of_isDigit {b : Byte} (h : isDigit b = true) : b ≠ 0x00#8 := by
  rintro rfl
  simp [isDigit] at h

/-- Bytes with no 0x00 among them are split off at the terminator (R76). -/
theorem splitAtNul_append (ds rest : List Byte) (h : ∀ b ∈ ds, b ≠ 0x00#8) :
    splitAtNul (ds ++ 0x00#8 :: rest) = some (ds, rest) := by
  induction ds with
  | nil => simp [splitAtNul]
  | cons d ds ih =>
    have hd : d ≠ 0x00#8 := h d List.mem_cons_self
    rw [List.cons_append, splitAtNul, if_neg hd, ih fun b hb => h b (List.mem_cons_of_mem _ hb)]

/-- In every mode the band height is eight times the density (R24). -/
theorem rowlimit_eq (v : Variant) : rowlimit v = 8 * density v := by cases v <;> rfl

/-- The band height fits the 5-bit row counter (R26). -/
theorem rowlimit_le (v : Variant) : rowlimit v ≤ 24 := by cases v <;> decide

/-- Every band has a row. -/
theorem rowlimit_pos (v : Variant) : 0 < rowlimit v := by cases v <;> decide

/-- A code that names a variant is that variant's code (R24). -/
theorem modeCode_of_variantOf {cfg : Config} {m : Byte} {v : Variant} (h : variantOf cfg m = some v) :
    cfg.modeCode v = m := by
  unfold variantOf at h
  split at h
  · cases h; symm; assumption
  · split at h
    · cases h; symm; assumption
    · split at h
      · cases h; symm; assumption
      · split at h
        · cases h; symm; assumption
        · cases h

end Sys2Proof
end

