-- ==== Sys2Proof/Laws/Packer.lean ====
section
/-! SUPPORT. The laws of the packer's pieces (41_bit_packer.md). -/

namespace Sys2Proof.Machine

/-- A list of values is collected exactly when every value is there. -/
theorem collect_eq_some {α : Type} {l : List (Option α)} {as : List α} :
    collect l = some as ↔ l = as.map some := by
  induction l generalizing as with
  | nil => cases as <;> simp [collect]
  | cons a l ih =>
    cases a with
    | none => cases as <;> simp [collect]
    | some a =>
      cases as with
      | nil => cases h : collect l <;> simp [collect, h]
      | cons b bs =>
        rw [List.map_cons, List.cons.injEq, Option.some.injEq, ← ih (as := bs)]
        cases h : collect l <;> simp [collect, h]

/-- Eight cells pack to the byte whose bit `7 - i` says whether cell `i` is dark (R130). -/
theorem packCells_bits (c0 c1 c2 c3 c4 c5 c6 c7 : Cell) :
    ∀ i : Fin 8, (packCells [c0, c1, c2, c3, c4, c5, c6, c7]).getLsbD (7 - i)
      = decide ([c0, c1, c2, c3, c4, c5, c6, c7][i] = dark) := by
  revert c0 c1 c2 c3 c4 c5 c6 c7
  decide +kernel

/-- A cell of the row just written reads as the row has it (R40, R41). -/
theorem bandRead_bandWrite_same (s : State) (r x : Nat) (row : Row) :
    bandRead (bandWrite s r row) r x = row[x]? := by
  simp [bandRead, bandWrite]

/-- A cell of another row reads as before (R40). -/
theorem bandRead_bandWrite_other (s : State) {r r' : Nat} (x : Nat) (row : Row) (h : r' ≠ r) :
    bandRead (bandWrite s r row) r' x = bandRead s r' x := by
  simp [bandRead, bandWrite, Memory.read_write_other s.band row h]

end Sys2Proof.Machine
end

