-- ==== Sys2Proof/Laws/PerInstr.lean ====
section
/-! SUPPORT. Laws said of every instruction, one lemma for each constructor. -/

namespace Sys2Proof.Laws.Leading

/-- The bytes opcode_table.json fixes at the head of an instruction's encoding: the host opcode, or the escape byte and
the sub-command. -/
def leadingBytes (cfg : Config) : Instr → List Byte
  | .prst => [0x01#8]
  | .cut => [0x02#8]
  | .pcut => [0x03#8]
  | .lfr _ => [0x04#8]
  | .pmode _ => [0x05#8]
  | .dbl _ => [0x06#8]
  | .ul _ => [0x07#8]
  | .bch _ => [0x08#8]
  | .bcw _ => [0x09#8]
  | .bctp _ => [0x0A#8]
  | .bcf _ => [0x0B#8]
  | .bcupc _ => [0x0C#8]
  | .ibegin _ _ => [0x10#8]
  | .irowg _ => [0x11#8]
  | .irowm _ => [0x12#8]
  | .iend => [0x13#8]
  | .dReset => [0x1B#8, 0x40#8]
  | .dCut => [0x1B#8, 0x69#8]
  | .dPcut => [0x1B#8, 0x6D#8]
  | .dLfr _ => [0x1B#8, 0x33#8]
  | .dPmode _ => [0x1B#8, 0x21#8]
  | .dDbl _ => [0x1B#8, 0x47#8]
  | .dUl _ => [0x1B#8, 0x2D#8]
  | .dBcprint _ _ => [0x1D#8, 0x6B#8]
  | .dImgband _ _ _ => [0x1B#8, 0x2A#8]
  | .dBch _ => [0x1D#8, cfg.bcSubHeight]
  | .dBcw _ => [0x1D#8, cfg.bcSubWidth]
  | .dBctp _ => [0x1D#8, cfg.bcSubTextPos]
  | .dBcf _ => [0x1D#8, cfg.bcSubFont]

/-- The bytes of an encoding whose place the spec fixes: a record's host opcode (R61), a device command whole (R66). -/
def fixedBytes : Encoded → List Byte
  | .transaction r => [r.hop]
  | .command bytes => bytes

/-- The encoding of an instruction starts with the bytes its row of the opcode table fixes (30_encoding.md R63, R75). -/
def Statement (i : Instr) : Prop := ∀ cfg : Config, leadingBytes cfg i <+: fixedBytes (encode cfg i)

theorem prst : Statement (.prst) := fun _ => ⟨_, rfl⟩

theorem cut : Statement (.cut) := fun _ => ⟨_, rfl⟩

theorem pcut : Statement (.pcut) := fun _ => ⟨_, rfl⟩

theorem lfr (n : Byte) : Statement (.lfr n) := fun _ => ⟨_, rfl⟩

theorem pmode (f : Byte) : Statement (.pmode f) := fun _ => ⟨_, rfl⟩

theorem dbl (b : Byte) : Statement (.dbl b) := fun _ => ⟨_, rfl⟩

theorem ul (b : Byte) : Statement (.ul b) := fun _ => ⟨_, rfl⟩

theorem bch (v : Byte) : Statement (.bch v) := fun _ => ⟨_, rfl⟩

theorem bcw (v : Byte) : Statement (.bcw v) := fun _ => ⟨_, rfl⟩

theorem bctp (v : Byte) : Statement (.bctp v) := fun _ => ⟨_, rfl⟩

theorem bcf (v : Byte) : Statement (.bcf v) := fun _ => ⟨_, rfl⟩

theorem bcupc (c : List Byte) : Statement (.bcupc c) := fun _ => ⟨_, rfl⟩

theorem ibegin (m : Byte) (w : U16) : Statement (.ibegin m w) := fun _ => ⟨_, rfl⟩

theorem irowg (s : List Byte) : Statement (.irowg s) := fun _ => ⟨_, rfl⟩

theorem irowm (p : Row) : Statement (.irowm p) := fun _ => ⟨_, rfl⟩

theorem iend : Statement (.iend) := fun _ => ⟨_, rfl⟩

theorem dReset : Statement (.dReset) := fun _ => ⟨_, rfl⟩

theorem dCut : Statement (.dCut) := fun _ => ⟨_, rfl⟩

theorem dPcut : Statement (.dPcut) := fun _ => ⟨_, rfl⟩

theorem dLfr (n : Byte) : Statement (.dLfr n) := fun _ => ⟨_, rfl⟩

theorem dPmode (f : Byte) : Statement (.dPmode f) := fun _ => ⟨_, rfl⟩

theorem dDbl (on : Bool) : Statement (.dDbl on) := fun _ => ⟨_, rfl⟩

theorem dUl (on : Bool) : Statement (.dUl on) := fun _ => ⟨_, rfl⟩

theorem dBcprint (mode : Byte) (digits : List Byte) : Statement (.dBcprint mode digits) := fun _ => ⟨_, rfl⟩

theorem dImgband (m : Byte) (w : U16) (data : List Byte) : Statement (.dImgband m w data) := fun _ => ⟨_, rfl⟩

theorem dBch (v : Byte) : Statement (.dBch v) := fun _ => ⟨_, rfl⟩

theorem dBcw (v : Byte) : Statement (.dBcw v) := fun _ => ⟨_, rfl⟩

theorem dBctp (v : Byte) : Statement (.dBctp v) := fun _ => ⟨_, rfl⟩

theorem dBcf (v : Byte) : Statement (.dBcf v) := fun _ => ⟨_, rfl⟩

end Sys2Proof.Laws.Leading
end

