-- ==== Sys2Proof/Tests/Slice0.lean ====
section
/-! SUPPORT. The model's own tests: the checks of WellFormed, a written-out encoding for every constructor, one-step
tests whose expected results are 95_test_vectors.md's, and a witness for every statement that has hypotheses. -/

namespace Sys2Proof.Tests

open Sys2Proof.Machine Sys2Proof.Claims

/-! ### Helpers -/

/-- Reset, with a list of transport answers to come, then `ok` for ever. -/
def idleWith (answers : List Answer) : State := { State.reset with link := ⟨answers, .ok⟩ }

/-- An image session with `rows` already written, and a list of transport answers to come. -/
def imageWith (m : Byte) (w : U16) (rows : List Row) (answers : List Answer) : State :=
  { idleWith answers with
    session := .image m w
    rowcnt := BitVec.ofNat 5 rows.length
    band := (List.range rows.length).zip rows }

/-- Reset with `WMAX` = 384. -/
def narrow : State := { State.reset with cfg := { Config.suggested with wmax := 384#16 } }

/-- The state a result goes on in. -/
def nextOf : Result → Option State
  | .next s => some s
  | .fault _ => none
  | .refused _ => none

/-- What an instruction leaves at the observation: the code of `RESP`, and `OUT`. -/
def outcome (i : Instr) (s : State) : Option (Option (BitVec 3) × List Byte) :=
  (nextOf (exec i s)).map fun t => (t.resp.map Response.code, t.out)

/-- What an instruction leaves in the session's own elements. -/
def sessionAfter (i : Instr) (s : State) : Option (Session × Nat × Memory) :=
  (nextOf (exec i s)).map fun t => (t.session, t.rowcnt.toNat, t.band)

/-- What an instruction leaves in `LOG`. -/
def logAfter (i : Instr) (s : State) : Option (List LogEntry) := (nextOf (exec i s)).map State.log

/-- What the decoder gives, without the reason of a refusal. -/
def decoded (e : Encoded) : Option Instr :=
  match decode Config.suggested e with
  | .ok i => some i
  | .error _ => none

/-- What the decoder gives for bytes on a wire with the byte framing (log 1). -/
def onWire (bytes : List Byte) : Option Instr :=
  match decodeWire byteFraming bytes with
  | .ok i => some i
  | .error _ => none

/-- The ASCII digits 1 2 3 4 5 6 7 8 9 0 1 (11 of them). -/
def eleven : List Byte :=
  [0x31#8, 0x32#8, 0x33#8, 0x34#8, 0x35#8, 0x36#8, 0x37#8, 0x38#8, 0x39#8, 0x30#8, 0x31#8]

/-! ### WellFormed refuses, once for each of its checks -/

theorem test_wf_bcupc_length : (Instr.bcupc (List.replicate 256 0x30#8)).wellFormed Config.suggested = false := by
  simp only [Instr.wellFormed, List.length_replicate]
  decide

theorem test_wf_irowg_length : (Instr.irowg (List.replicate 65536 0x00#8)).wellFormed Config.suggested = false := by
  simp only [Instr.wellFormed, List.length_replicate]
  decide

theorem test_wf_irowm_length : (Instr.irowm (List.replicate 65536 dark)).wellFormed Config.suggested = false := by
  simp only [Instr.wellFormed, List.length_replicate]
  decide

theorem test_wf_bcprint_mode : (Instr.dBcprint 0x01#8 eleven).wellFormed Config.suggested = false := by decide

theorem test_wf_bcprint_count : (Instr.dBcprint 0x00#8 (eleven.take 10)).wellFormed Config.suggested = false := by decide

theorem test_wf_bcprint_digit :
    (Instr.dBcprint 0x00#8 (0x2F#8 :: eleven.take 10)).wellFormed Config.suggested = false := by decide

theorem test_wf_imgband_mode : (Instr.dImgband 0x02#8 1#16 [0x00#8]).wellFormed Config.suggested = false := by decide

theorem test_wf_imgband_width : (Instr.dImgband 0x00#8 0#16 []).wellFormed Config.suggested = false := by decide

theorem test_wf_imgband_length :
    (Instr.dImgband 0x21#8 1#16 [0x00#8, 0x00#8]).wellFormed Config.suggested = false := by decide

theorem test_wf_accepts :
    (Instr.dBcprint 0x00#8 eleven).wellFormed Config.suggested = true ∧
    (Instr.dImgband 0x21#8 1#16 [0x00#8, 0x00#8, 0x01#8]).wellFormed Config.suggested = true := by decide

/-! ### Decoding, a word written out for every constructor (30_encoding.md R63, R66 to R71) -/

theorem test_decode_prst : decoded (.transaction ⟨0x01#8, []⟩) = some .prst := by decide
theorem test_decode_cut : decoded (.transaction ⟨0x02#8, []⟩) = some .cut := by decide
theorem test_decode_pcut : decoded (.transaction ⟨0x03#8, []⟩) = some .pcut := by decide
theorem test_decode_lfr : decoded (.transaction ⟨0x04#8, [.u8 0xFF#8]⟩) = some (.lfr 255#8) := by decide
theorem test_decode_pmode : decoded (.transaction ⟨0x05#8, [.u8 0x08#8]⟩) = some (.pmode 8#8) := by decide
theorem test_decode_dbl : decoded (.transaction ⟨0x06#8, [.u8 0x02#8]⟩) = some (.dbl 2#8) := by decide
theorem test_decode_ul : decoded (.transaction ⟨0x07#8, [.u8 0x01#8]⟩) = some (.ul 1#8) := by decide
theorem test_decode_bch : decoded (.transaction ⟨0x08#8, [.u8 0x50#8]⟩) = some (.bch 80#8) := by decide
theorem test_decode_bcw : decoded (.transaction ⟨0x09#8, [.u8 0x03#8]⟩) = some (.bcw 3#8) := by decide
theorem test_decode_bctp : decoded (.transaction ⟨0x0A#8, [.u8 0x02#8]⟩) = some (.bctp 2#8) := by decide
theorem test_decode_bcf : decoded (.transaction ⟨0x0B#8, [.u8 0x00#8]⟩) = some (.bcf 0#8) := by decide
theorem test_decode_bcupc : decoded (.transaction ⟨0x0C#8, [.bytes [0x31#8, 0x2D#8]]⟩) = some (.bcupc [0x31#8, 0x2D#8]) := by decide
theorem test_decode_ibegin : decoded (.transaction ⟨0x10#8, [.u8 0x21#8, .u16 0x012C#16]⟩) = some (.ibegin 0x21#8 300#16) := by decide
theorem test_decode_irowg :
    decoded (.transaction ⟨0x11#8, [.bytes [0x80#8, 0x81#8]]⟩) = some (.irowg [128#8, 129#8]) := by decide
theorem test_decode_irowm :
    decoded (.transaction ⟨0x12#8, [.cells [0#1, 1#1]]⟩) = some (.irowm [dark, light]) := by decide
theorem test_decode_iend : decoded (.transaction ⟨0x13#8, []⟩) = some .iend := by decide
theorem test_decode_dReset : decoded (.command [0x1B#8, 0x40#8]) = some .dReset := by decide
theorem test_decode_dCut : decoded (.command [0x1B#8, 0x69#8]) = some .dCut := by decide
theorem test_decode_dPcut : decoded (.command [0x1B#8, 0x6D#8]) = some .dPcut := by decide
theorem test_decode_dLfr : decoded (.command [0x1B#8, 0x33#8, 0x01#8]) = some (.dLfr 1#8) := by decide
theorem test_decode_dPmode : decoded (.command [0x1B#8, 0x21#8, 0xFF#8]) = some (.dPmode 255#8) := by decide
theorem test_decode_dDbl : decoded (.command [0x1B#8, 0x47#8, 0x01#8]) = some (.dDbl true) := by decide
theorem test_decode_dUl : decoded (.command [0x1B#8, 0x2D#8, 0x00#8]) = some (.dUl false) := by decide
theorem test_decode_dBcprint :
    decoded (.command ([0x1D#8, 0x6B#8, 0x00#8] ++ eleven ++ [0x00#8])) = some (.dBcprint 0x00#8 eleven) := by decide
theorem test_decode_dImgband :
    decoded (.command [0x1B#8, 0x2A#8, 0x20#8, 0x01#8, 0x00#8, 0x1B#8, 0x40#8, 0x80#8])
      = some (.dImgband 0x20#8 1#16 [0x1B#8, 0x40#8, 0x80#8]) := by decide
theorem test_decode_dBch : decoded (.command [0x1D#8, 0x68#8, 0x50#8]) = some (.dBch 80#8) := by decide
theorem test_decode_dBcw : decoded (.command [0x1D#8, 0x77#8, 0x03#8]) = some (.dBcw 3#8) := by decide
theorem test_decode_dBctp : decoded (.command [0x1D#8, 0x48#8, 0x02#8]) = some (.dBctp 2#8) := by decide
theorem test_decode_dBcf : decoded (.command [0x1D#8, 0x66#8, 0x00#8]) = some (.dBcf 0#8) := by decide

/-- R61, R65, R68, R75, R77: what is no instruction. -/
theorem test_decode_refuses :
    decoded (.transaction ⟨0x0D#8, []⟩) = none ∧ decoded (.transaction ⟨0x01#8, [.u8 0x00#8]⟩) = none ∧
    decoded (.transaction ⟨0x04#8, []⟩) = none ∧ decoded (.transaction ⟨0x12#8, [.bytes [0x00#8]]⟩) = none ∧
    decoded (.command [0x1B#8, 0x64#8, 0x01#8]) = none ∧ decoded (.command [0x1B#8, 0x47#8, 0x02#8]) = none ∧
    decoded (.command [0x1B#8, 0x40#8, 0x00#8]) = none ∧
    decoded (.command [0x1B#8, 0x2A#8, 0x00#8, 0x02#8, 0x00#8, 0x00#8]) = none := by decide

/-- The byte framing (log 1), by each kind of operand. -/
theorem test_wire :
    onWire [0x13#8] = some .iend ∧ onWire [0x04#8, 0xFF#8] = some (.lfr 255#8) ∧
    onWire [0x10#8, 0x21#8, 0x2C#8, 0x01#8] = some (.ibegin 0x21#8 300#16) ∧
    onWire [0x0C#8, 0x02#8, 0x00#8, 0x31#8, 0x2D#8] = some (.bcupc [0x31#8, 0x2D#8]) ∧
    onWire [0x12#8, 0x02#8, 0x00#8, 0x00#8, 0x01#8] = some (.irowm [dark, light]) := by decide

/-- What carries no whole record: nothing, a byte too few or too many, a cell byte above 1. -/
theorem test_wire_refuses :
    onWire [] = none ∧ onWire [0x04#8] = none ∧ onWire [0x01#8, 0x00#8] = none ∧
    onWire [0x11#8, 0x02#8, 0x00#8, 0x80#8] = none ∧ onWire [0x12#8, 0x01#8, 0x00#8, 0x02#8] = none := by decide

/-- The table's words (opcode_table.json), one of each width. -/
theorem test_table_words :
    decodeTableWord 8 0x13 = some .iend ∧ decodeTableWord 16 0x1B33 = some (.dLfr 0#8) ∧
    decodeTableWord 24 0x1D4802 = some (.dBctp 2#8) := by decide

/-! ### Stand-alone commands (95_test_vectors.md V3, D-ENC, D-ERR) -/

theorem test_prst : outcome .prst State.reset = some (some 0#3, [0x1B#8, 0x40#8]) := by decide

theorem test_prst_write_fail :
    outcome .prst (idleWith [.fail 1]) = some (some 3#3, [0x1B#8]) ∧
    logAfter .prst (idleWith [.fail 1]) = some [.writeFail [0x1B#8, 0x40#8] 1] := by decide

theorem test_cut : outcome .cut State.reset = some (some 0#3, [0x1B#8, 0x69#8]) := by decide

theorem test_cut_in_image : outcome .cut (imageWith 0x00#8 1#16 [] []) = some (some 5#3, []) := by decide

theorem test_pcut : outcome .pcut State.reset = some (some 0#3, [0x1B#8, 0x6D#8]) := by decide

theorem test_lfr : outcome (.lfr 255#8) State.reset = some (some 0#3, [0x1B#8, 0x33#8, 0xFF#8]) := by decide

theorem test_pmode : outcome (.pmode 0x08#8) State.reset = some (some 0#3, [0x1B#8, 0x21#8, 0x08#8]) := by decide

theorem test_dbl : outcome (.dbl 2#8) State.reset = some (some 0#3, [0x1B#8, 0x47#8, 0x01#8]) := by decide

theorem test_dbl_off : outcome (.dbl 0#8) State.reset = some (some 0#3, [0x1B#8, 0x47#8, 0x00#8]) := by decide

theorem test_ul : outcome (.ul 0xFF#8) State.reset = some (some 0#3, [0x1B#8, 0x2D#8, 0x01#8]) := by decide

theorem test_bch : outcome (.bch 80#8) State.reset = some (some 0#3, [0x1D#8, 0x68#8, 0x50#8]) := by decide

theorem test_bcw : outcome (.bcw 3#8) State.reset = some (some 0#3, [0x1D#8, 0x77#8, 0x03#8]) := by decide

theorem test_bctp : outcome (.bctp 2#8) State.reset = some (some 0#3, [0x1D#8, 0x48#8, 0x02#8]) := by decide

theorem test_bcf : outcome (.bcf 0#8) State.reset = some (some 0#3, [0x1D#8, 0x66#8, 0x00#8]) := by decide

/-- V3: 0-12345-67890-5 holds twelve digits. -/
theorem test_bcupc_filters :
    outcome (.bcupc [0x30#8, 0x2D#8, 0x31#8, 0x32#8, 0x33#8, 0x34#8, 0x35#8, 0x2D#8, 0x36#8, 0x37#8, 0x38#8, 0x39#8,
      0x30#8, 0x2D#8, 0x35#8]) State.reset
    = some (some 0#3, [0x1D#8, 0x6B#8, 0x00#8, 0x30#8, 0x31#8, 0x32#8, 0x33#8, 0x34#8, 0x35#8, 0x36#8, 0x37#8, 0x38#8,
      0x39#8, 0x30#8, 0x35#8, 0x00#8]) := by decide

theorem test_bcupc_rejects :
    outcome (.bcupc (eleven.take 10)) State.reset = some (some 2#3, []) ∧
    outcome (.bcupc (eleven ++ [0x32#8, 0x33#8])) State.reset = some (some 2#3, []) := by decide

/-! ### Image sessions (V5, D-ROW, D-PAD, D-SES, D-ERR) -/

theorem test_ibegin :
    outcome (.ibegin 0x00#8 384#16) narrow = some (some 0#3, [0x1B#8, 0x33#8, 0x01#8]) ∧
    sessionAfter (.ibegin 0x00#8 384#16) narrow = some (.image 0x00#8 384#16, 0, []) := by decide

theorem test_ibegin_rejects :
    outcome (.ibegin 0x00#8 385#16) narrow = some (some 1#3, []) ∧
    outcome (.ibegin 0x02#8 0#16) narrow = some (some 1#3, []) ∧
    outcome (.ibegin 0x02#8 16#16) narrow = some (some 4#3, []) := by decide

theorem test_irowg :
    sessionAfter (.irowg [0#8, 128#8, 129#8, 255#8]) (imageWith 0x00#8 4#16 [] [])
      = some (.image 0x00#8 4#16, 1, [(0, [dark, dark, light, light])]) := by decide

theorem test_irowg_rejects :
    outcome (.irowg [0#8]) State.reset = some (some 5#3, []) ∧
    outcome (.irowg [0#8, 0#8, 0#8]) (imageWith 0x00#8 4#16 [[dark, dark, dark, dark]] []) = some (some 1#3, []) := by
  decide

theorem test_irowm_completes_band :
    outcome (.irowm [dark, light, dark]) (imageWith 0x00#8 3#16 (List.replicate 7 [light, light, light]) [])
      = some (some 0#3, [0x1B#8, 0x2A#8, 0x00#8, 0x03#8, 0x00#8, 0x01#8, 0x00#8, 0x01#8]) := by decide +kernel

theorem test_irowm_completes_high_band :
    outcome (.irowm [dark]) (imageWith 0x21#8 1#16 (List.replicate 23 [light]) [])
      = some (some 0#3, [0x1B#8, 0x2A#8, 0x21#8, 0x01#8, 0x00#8, 0x00#8, 0x00#8, 0x01#8]) := by decide +kernel

theorem test_iend_pads :
    outcome .iend (imageWith 0x21#8 1#16 (List.replicate 9 [dark]) [])
      = some (some 0#3, [0x1B#8, 0x2A#8, 0x21#8, 0x01#8, 0x00#8, 0xFF#8, 0x80#8, 0x00#8, 0x1B#8, 0x40#8]) := by
  decide +kernel

theorem test_iend_band_fails :
    outcome .iend (imageWith 0x00#8 1#16 [[dark], [dark]] [.fail 0]) = some (some 3#3, []) ∧
    sessionAfter .iend (imageWith 0x00#8 1#16 [[dark], [dark]] [.fail 0]) = some (.idle, 0, []) := by decide +kernel

/-- D-PACK: the columns of an LL band, by their eight cells. -/
theorem test_pack_columns :
    packCells [0#1, 1#1, 1#1, 1#1, 1#1, 1#1, 1#1, 1#1] = 0x80#8 ∧
    packCells [1#1, 1#1, 1#1, 1#1, 1#1, 1#1, 1#1, 0#1] = 0x01#8 ∧
    packCells [0#1, 1#1, 0#1, 1#1, 0#1, 1#1, 0#1, 1#1] = 0xAA#8 ∧
    packCells [0#1, 0#1, 0#1, 0#1, 1#1, 1#1, 1#1, 1#1] = 0xF0#8 := by decide

/-- V2 and D-THR. -/
theorem test_threshold : threshold 128#8 = dark ∧ threshold 129#8 = light ∧ threshold 0#8 = dark := by decide

/-- R79's pictures. -/
theorem test_picture : cellsOfPicture ['#', '.', '#'] = some [dark, light, dark] ∧ cellsOfPicture ['x'] = none := by
  decide

/-! ### Device commands (R161 to R173) -/

theorem test_dReset : outcome .dReset State.reset = some (none, [0x1B#8, 0x40#8]) := by decide
theorem test_dCut : outcome .dCut State.reset = some (none, [0x1B#8, 0x69#8]) := by decide
theorem test_dPcut : outcome .dPcut State.reset = some (none, [0x1B#8, 0x6D#8]) := by decide
theorem test_dLfr : outcome (.dLfr 1#8) State.reset = some (none, [0x1B#8, 0x33#8, 0x01#8]) := by decide
theorem test_dPmode : outcome (.dPmode 8#8) State.reset = some (none, [0x1B#8, 0x21#8, 0x08#8]) := by decide
theorem test_dDbl : outcome (.dDbl true) State.reset = some (none, [0x1B#8, 0x47#8, 0x01#8]) := by decide
theorem test_dUl : outcome (.dUl false) State.reset = some (none, [0x1B#8, 0x2D#8, 0x00#8]) := by decide
theorem test_dBcprint :
    outcome (.dBcprint 0x00#8 [0x31#8, 0x32#8]) State.reset
      = some (none, [0x1D#8, 0x6B#8, 0x00#8, 0x31#8, 0x32#8, 0x00#8]) := by decide
theorem test_dImgband :
    outcome (.dImgband 0x00#8 256#16 []) State.reset = some (none, [0x1B#8, 0x2A#8, 0x00#8, 0x00#8, 0x01#8]) := by decide
theorem test_dBch : outcome (.dBch 80#8) State.reset = some (none, [0x1D#8, 0x68#8, 0x50#8]) := by decide
theorem test_dBcw : outcome (.dBcw 3#8) State.reset = some (none, [0x1D#8, 0x77#8, 0x03#8]) := by decide
theorem test_dBctp : outcome (.dBctp 2#8) State.reset = some (none, [0x1D#8, 0x48#8, 0x02#8]) := by decide
theorem test_dBcf : outcome (.dBcf 0#8) State.reset = some (none, [0x1D#8, 0x66#8, 0x00#8]) := by decide

/-! ### Steps -/

/-- R65: hop 0x0D answers 6; R61: a partial record is refused. -/
theorem test_step_reserved_and_partial :
    (nextOf (step { State.reset with input := [.deliver (.transaction ⟨0x0D#8, []⟩)] })).map (·.resp)
      = some (some .unsupportedOperation) ∧
    nextOf (step { State.reset with input := [.deliver (.transaction ⟨0x04#8, []⟩)] }) = none := by decide

/-- The host's fetch hook: D_LFR's table word runs as the first instruction after reset. -/
theorem test_step_fetch_word :
    (nextOf (step (State.reset.withFetchWord 16 0x1B33))).map State.out = some [0x1B#8, 0x33#8, 0x00#8] := by decide

/-! ### Witnesses: for every statement with hypotheses, states and operands that meet them -/

/-- What a transport failure of `bytes` leaves, by the way it fails. -/
def afterWriteFail (s : State) (bytes : List Byte) (k : Nat) : State :=
  { s with
    link := ⟨[], .ok⟩
    out := s.out ++ bytes.take k
    log := s.log ++ [.writeFail bytes (min k bytes.length)] }

/-- See `afterWriteFail`. -/
def afterFlushFail (s : State) (bytes : List Byte) : State :=
  { s with link := ⟨[], .ok⟩, out := s.out ++ bytes, log := s.log ++ [.write bytes, .flushFail] }

/-- The hypothesis `Link.Accepts` is met. -/
theorem witness_accepts : Link.Accepts State.reset.link State.reset.link := ⟨_, rfl, rfl⟩

/-- The hypothesis `TransportFails` is met in IDLE, by a write that fails after no byte, after some, after all and
beyond, and by a flush. -/
theorem witness_transport_fails (bytes : List Byte) :
    (∀ k, (idleWith [.fail k]).session = .idle ∧
      TransportFails (idleWith [.fail k]) bytes (afterWriteFail (idleWith [.fail k]) bytes k)) ∧
    (idleWith [.ok, .fail 0]).session = .idle ∧
      TransportFails (idleWith [.ok, .fail 0]) bytes (afterFlushFail (idleWith [.ok, .fail 0]) bytes) :=
  ⟨fun k => ⟨rfl, .inl ⟨k, _, rfl, rfl⟩⟩, rfl, .inr ⟨_, 0, _, rfl, rfl, rfl⟩⟩

/-- It is met in IMAGE, whatever the band holds. -/
theorem witness_transport_fails_in_image (m : Byte) (w : U16) (rows : List Row) (bytes : List Byte) :
    (∀ k, (imageWith m w rows [.fail k]).session = .image m w ∧
      TransportFails (imageWith m w rows [.fail k]) bytes (afterWriteFail (imageWith m w rows [.fail k]) bytes k)) ∧
    (imageWith m w rows [.ok, .fail 0]).session = .image m w ∧
      TransportFails (imageWith m w rows [.ok, .fail 0]) bytes
        (afterFlushFail (imageWith m w rows [.ok, .fail 0]) bytes) :=
  ⟨fun k => ⟨rfl, .inl ⟨k, _, rfl, rfl⟩⟩, rfl, .inr ⟨_, 0, _, rfl, rfl, rfl⟩⟩

/-- `Standalone` (PRST to BCUPC) and `OneEmit` (the device commands): each clause. -/
theorem witness_Standalone_OneEmit :
    State.reset.session = .idle ∧ Link.Accepts State.reset.link State.reset.link ∧
    (imageWith 0x00#8 1#16 [] []).session = .image 0x00#8 1#16 ∧
    TransportFails (idleWith [.fail 1]) [0x1B#8, 0x40#8] (afterWriteFail (idleWith [.fail 1]) [0x1B#8, 0x40#8] 1) :=
  ⟨rfl, witness_accepts, rfl, ((witness_transport_fails _).1 1).2⟩

/-- Eleven and twelve digits; none, ten and thirteen. -/
theorem witness_BcupcPrintsElevenOrTwelveDigits :
    (∀ c ∈ [eleven, 0x2D#8 :: eleven ++ [0x32#8]], c.length ≤ 255 ∧
      ((c.filter fun x => decide (0x30 ≤ x.toNat ∧ x.toNat ≤ 0x39)).length = 11 ∨
       (c.filter fun x => decide (0x30 ≤ x.toNat ∧ x.toNat ≤ 0x39)).length = 12)) ∧
    (∀ c ∈ [[], eleven.take 10, eleven ++ [0x32#8, 0x33#8]], c.length ≤ 255 ∧
      ¬ ((c.filter fun x => decide (0x30 ≤ x.toNat ∧ x.toNat ≤ 0x39)).length = 11 ∨
       (c.filter fun x => decide (0x30 ≤ x.toNat ∧ x.toNat ≤ 0x39)).length = 12)) := by decide

/-- Width 0 and `WMAX` + 1; a byte that is no mode code; widths 1 and `WMAX` in every mode. -/
theorem witness_IbeginOpensASession :
    narrow.session = .idle ∧ ((0#16).toNat = 0 ∧ narrow.cfg.wmax.toNat < (385#16).toNat) ∧
    (1 ≤ (1#16).toNat ∧ (1#16).toNat ≤ narrow.cfg.wmax.toNat) ∧
    (1 ≤ (384#16).toNat ∧ (384#16).toNat ≤ narrow.cfg.wmax.toNat) ∧
    (∀ v, 0x02#8 ≠ narrow.cfg.modeCode v) ∧ narrow.cfg.modeCode .HH = 0x21#8 ∧
    Link.Accepts narrow.link narrow.link := by
  refine ⟨rfl, by decide, by decide, by decide, fun v => ?_, rfl, ⟨_, rfl, rfl⟩⟩
  cases v <;> decide

/-- `RowTransaction` (IROWG and IROWM): a row of another width; a row below the limit (the first and the last such one);
a row that completes the band, in low and in high density. -/
theorem witness_RowTransaction :
    ([dark] : Row).length ≠ (2#16).toNat ∧ ([dark] : Row).length = (1#16).toNat ∧
    (∀ n ∈ [0, 6, 7], (imageWith 0x00#8 1#16 (List.replicate n [light]) []).inv = true) ∧
    (∀ n ∈ [0, 22, 23], (imageWith 0x21#8 1#16 (List.replicate n [light]) []).inv = true) ∧
    variantOf Config.suggested 0x00#8 = some .LL ∧ variantOf Config.suggested 0x21#8 = some .HH ∧
    (imageWith 0x00#8 1#16 (List.replicate 6 [light]) []).rowcnt.toNat + 1 < rowlimit .LL ∧
    (imageWith 0x00#8 1#16 (List.replicate 7 [light]) []).rowcnt.toNat + 1 = rowlimit .LL ∧
    (imageWith 0x21#8 1#16 (List.replicate 22 [light]) []).rowcnt.toNat + 1 < rowlimit .HH ∧
    (imageWith 0x21#8 1#16 (List.replicate 23 [light]) []).rowcnt.toNat + 1 = rowlimit .HH := by decide +kernel

/-- No row left over; 1 and 23 rows left over, with the band and then the Reset command accepted, or the Reset command
failed after an accepted band. -/
theorem witness_IendPadsAndCloses :
    (imageWith 0x00#8 1#16 [] []).rowcnt = 0#5 ∧
    (∀ n ∈ [1, 23], (imageWith 0x21#8 1#16 (List.replicate n [dark]) []).inv = true ∧
      (imageWith 0x21#8 1#16 (List.replicate n [dark]) []).rowcnt ≠ 0#5) ∧
    Link.Accepts State.reset.link State.reset.link ∧
    (∀ data, Link.Accepts (imageWith 0x21#8 1#16 [[dark]] [.ok, .ok, .fail 1]).link ⟨[.fail 1], .ok⟩ ∧
      ∃ t, TransportFails
        (sent (imageWith 0x21#8 1#16 [[dark]] [.ok, .ok, .fail 1]) (bandCommand 0x21#8 1#16 data) ⟨[.fail 1], .ok⟩)
        [0x1B#8, 0x40#8] t) :=
  ⟨rfl, by decide +kernel, witness_accepts, fun _ => ⟨⟨_, rfl, rfl⟩, _, .inl ⟨1, _, rfl, rfl⟩⟩⟩

/-- Nine rows of two kinds in an LL session: one whole band and one padded one. -/
theorem witness_WholeImageIsSentBandByBand :
    State.reset.inv = true ∧ State.reset.session = .idle ∧ Link.allOk State.reset.link = true ∧
    1 ≤ (1#16).toNat ∧ (1#16).toNat ≤ State.reset.cfg.wmax.toNat ∧
    (.irowm [light] :: List.replicate 8 (.irowg [128#8])).map rowOf
      = ([light] :: List.replicate 8 [dark]).map some ∧
    (∀ row ∈ ([light] :: List.replicate 8 [dark] : List Row), row.length = (1#16).toNat) := by decide

/-- Well-formed instructions of both ports under a legal configuration, the longest record among them. -/
theorem witness_DecodeEncodeRoundTrip :
    Config.suggested.wf = true ∧ (Instr.dBcprint 0x00#8 eleven).wellFormed Config.suggested = true ∧
    (Instr.dImgband 0x00#8 1#16 [0x1B#8]).wellFormed Config.suggested = true ∧
    (Instr.irowg (List.replicate 65535 0x00#8)).wellFormed Config.suggested = true ∧
    (Instr.irowm []).wellFormed Config.suggested = true := by
  refine ⟨by decide, by decide, by decide, ?_, by decide⟩
  simp only [Instr.wellFormed, List.length_replicate]
  decide

/-- Host opcodes at the edges of R65's ranges, and the whole records of two rows beside records that are not whole. -/
theorem witness_EveryRecordHasOneMeaning :
    (∀ hop ∈ [0x00#8, 0x0D#8, 0x0F#8, 0x14#8, 0xFF#8], Reserved hop) ∧
    (∀ hop ∈ [0x01#8, 0x0C#8, 0x10#8, 0x13#8], ¬ Reserved hop) ∧
    (HostRecord.mk 0x01#8 []).whole = true ∧ (HostRecord.mk 0x0C#8 [.bytes (List.replicate 255 0x30#8)]).whole = true ∧
    (HostRecord.mk 0x01#8 [.u8 0x00#8]).whole = false ∧
    (HostRecord.mk 0x0C#8 [.bytes (List.replicate 256 0x30#8)]).whole = false ∧
    (HostRecord.mk 0x10#8 [.u8 0x00#8]).whole = false := by
  unfold Reserved
  decide +kernel

/-- A framing that carries the records themselves, and a record of each clause. -/
theorem witness_NoRuleDependsOnHostFraming :
    (HostFraming.mk (Wire := HostRecord) id some).Faithful ∧
    (Instr.ibegin 0x00#8 300#16).wellFormed State.reset.cfg = true ∧
    encode State.reset.cfg (.ibegin 0x00#8 300#16) = .transaction ⟨0x10#8, [.u8 0x00#8, .u16 300#16]⟩ ∧
    (HostRecord.mk 0x02#8 []).whole = true ∧
    ({ State.reset with input := [.deliver (.transaction ⟨0x02#8, []⟩)] } : State).input
      = .deliver (.transaction ⟨0x02#8, []⟩) :: [] := ⟨fun _ _ => rfl, rfl, rfl, rfl, rfl⟩

theorem witness_ByteFramingIsFaithful :
    byteFraming.read [0x10#8, 0x00#8, 0x2C#8, 0x01#8] = some ⟨0x10#8, [.u8 0x00#8, .u16 300#16]⟩ := by decide

theorem witness_OutputStreamParsesBack :
    Config.suggested.wf = true ∧
    ∀ i ∈ [Instr.dImgband 0x00#8 1#16 [0x1B#8], .dReset, .dBcprint 0x00#8 eleven, .dUl true],
      i.port = .device ∧ i.wellFormed Config.suggested = true := by decide

theorem witness_StepRunsTheDecodedInstruction :
    ({ State.reset with input := [.deliver (.transaction ⟨0x04#8, [.u8 0xFF#8]⟩), .reset] } : State).input
      = .deliver (.transaction ⟨0x04#8, [.u8 0xFF#8]⟩) :: [.reset] ∧
    decode State.reset.cfg (.transaction ⟨0x04#8, [.u8 0xFF#8]⟩) = .ok (.lfr 0xFF#8) ∧
    ({ State.reset with input := [.deliver (.command [0x1B#8, 0x40#8])] } : State).input
      = .deliver (.command [0x1B#8, 0x40#8]) :: [] ∧
    decode State.reset.cfg (.command [0x1B#8, 0x40#8]) = .ok .dReset := ⟨rfl, rfl, rfl, rfl⟩

theorem witness_ReservedOpcodeAnswersUnsupported :
    ∀ hop ∈ [0x00#8, 0x0D#8, 0x0F#8, 0x14#8, 0xFF#8],
      ({ State.reset with input := [.deliver (.transaction ⟨hop, [.u8 0x01#8]⟩)] } : State).input
        = .deliver (.transaction ⟨hop, [.u8 0x01#8]⟩) :: [] ∧ Reserved hop := by
  unfold Reserved
  decide

theorem witness_IdleStepHoldsTheState : State.reset.input = [] := rfl

theorem witness_FetchWordIsRunNext :
    decode State.reset.cfg (tableEncoded 8 0x10) = .ok (.ibegin 0#8 0#16) ∧
    decode State.reset.cfg (tableEncoded 16 0x1D6B) = .ok (.dBcprint 0#8 []) ∧
    decode State.reset.cfg (tableEncoded 24 0x1D6850) = .ok (.dBch 80#8) := ⟨rfl, rfl, rfl⟩

theorem witness_ResetStateIsAsTabled :
    ({ imageWith 0x00#8 1#16 [[dark]] [] with input := [.reset] } : State).input = .reset :: [] := rfl

/-- `Sends` is met by every kind of emitting instruction: a stand-alone command, BCUPC, IBEGIN, a row that completes a
band, IEND with one command and with two, a device command. -/
theorem witness_Sends (answers : List Answer) :
    Sends .prst (idleWith answers) [[0x1B#8, 0x40#8]] ∧
    Sends (.bcupc eleven) (idleWith answers) [[0x1D#8, 0x6B#8, 0x00#8] ++ eleven ++ [0x00#8]] ∧
    Sends (.ibegin 0x00#8 1#16) (idleWith answers) [[0x1B#8, 0x33#8, 0x01#8]] ∧
    Sends (.irowm [dark]) (imageWith 0x00#8 1#16 (List.replicate 7 [light]) answers)
      [[0x1B#8, 0x2A#8, 0x00#8, 0x01#8, 0x00#8, 0x01#8]] ∧
    Sends .iend (imageWith 0x00#8 1#16 [] answers) [[0x1B#8, 0x40#8]] ∧
    Sends .iend (imageWith 0x00#8 1#16 [[dark]] answers)
      [[0x1B#8, 0x2A#8, 0x00#8, 0x01#8, 0x00#8, 0x80#8], [0x1B#8, 0x40#8]] ∧
    Sends .dCut (idleWith answers) [[0x1B#8, 0x69#8]] :=
  ⟨⟨_, rfl, rfl, rfl⟩, ⟨_, rfl, rfl, rfl⟩, ⟨_, rfl, rfl, rfl⟩, ⟨_, rfl, rfl, rfl⟩, ⟨_, rfl, rfl, rfl⟩,
    ⟨_, rfl, rfl, rfl⟩, ⟨_, rfl, rfl, rfl⟩⟩

/-- A cut before the response; the second command of IEND cut in its write and in its flush; a transaction that a reset
cuts and that gives no response. -/
theorem witness_ResetCutsATransaction :
    ({ State.reset with input := [.cut ⟨0x01#8, []⟩] } : State).input = .cut ⟨0x01#8, []⟩ :: [] ∧
    decode State.reset.cfg (.transaction ⟨0x01#8, []⟩) = .ok .prst ∧
    exec .prst State.reset = .next (answered (sent State.reset [0x1B#8, 0x40#8] ⟨[], .ok⟩) .ok) ∧
    (Sends .iend (imageWith 0x00#8 1#16 [[dark]] [.ok, .ok, .reset 1])
      ([[0x1B#8, 0x2A#8, 0x00#8, 0x01#8, 0x00#8, 0x80#8]] ++ [0x1B#8, 0x40#8] :: []) ∧
      AcceptsEach 1 (imageWith 0x00#8 1#16 [[dark]] [.ok, .ok, .reset 1]).link ⟨[.reset 1], .ok⟩ ∧
      Link.next ⟨[.reset 1], .ok⟩ = some (.reset 1, ⟨[], .ok⟩)) ∧
    (Sends .iend (imageWith 0x00#8 1#16 [[dark]] [.ok, .ok, .ok, .reset 0])
      ([[0x1B#8, 0x2A#8, 0x00#8, 0x01#8, 0x00#8, 0x80#8]] ++ [0x1B#8, 0x40#8] :: []) ∧
      AcceptsEach 1 (imageWith 0x00#8 1#16 [[dark]] [.ok, .ok, .ok, .reset 0]).link ⟨[.ok, .reset 0], .ok⟩ ∧
      Link.next ⟨[.ok, .reset 0], .ok⟩ = some (.ok, ⟨[.reset 0], .ok⟩) ∧
      Link.next ⟨[.reset 0], .ok⟩ = some (.reset 0, ⟨[], .ok⟩)) ∧
    (Instr.cut.port = .host ∧ exec .cut (idleWith [.reset 0]) = .next State.reset ∧
      State.reset.responses = (idleWith [.reset 0]).responses) :=
  ⟨rfl, rfl, rfl, ⟨(witness_Sends _).2.2.2.2.2.1, ⟨_, ⟨_, rfl, rfl⟩, rfl⟩, rfl⟩,
    ⟨(witness_Sends _).2.2.2.2.2.1, ⟨_, ⟨_, rfl, rfl⟩, rfl⟩, rfl, rfl⟩, rfl, rfl, rfl⟩

/-- A host transaction that goes through, and one that a reset cuts. -/
theorem witness_OneResponseUnlessReset :
    Instr.cut.port = .host ∧
    exec .cut State.reset = .next (answered (sent State.reset [0x1B#8, 0x69#8] ⟨[], .ok⟩) .ok) ∧
    exec .cut (idleWith [.reset 0]) = .next State.reset := ⟨rfl, rfl, rfl⟩

theorem witness_OutOfSequenceAnswersSequenceError :
    (Instr.irowm [dark]).port = .host ∧ imageOnly (.irowm [dark]) = true ∧ State.reset.session = .idle ∧
    Instr.prst.port = .host ∧ imageOnly .prst = false ∧
    (imageWith 0x00#8 1#16 [] []).session = .image 0x00#8 1#16 := ⟨rfl, rfl, rfl, rfl, rfl, rfl⟩

/-- IBEGIN of width 0 is such a transaction. -/
theorem witness_ValidationErrorsChangeNothing :
    (Instr.ibegin 0x00#8 0#16).port = .host ∧
    exec (.ibegin 0x00#8 0#16) State.reset = .next (answered State.reset .invalidDimension) ∧
    (answered State.reset .invalidDimension).responses = State.reset.responses ++ [.invalidDimension] ∧
    Response.invalidDimension ≠ .ok ∧ Response.invalidDimension ≠ .transportUnavailable :=
  ⟨rfl, rfl, rfl, by decide, by decide⟩

/-- A failed write in IDLE, and a failed flush in IMAGE. -/
theorem witness_TransportFailureEffects :
    Instr.prst.port = .host ∧
    exec .prst (idleWith [.fail 1])
      = .next (answered (afterWriteFail (idleWith [.fail 1]) [0x1B#8, 0x40#8] 1) .transportUnavailable) ∧
    (imageWith 0x00#8 1#16 [] [.ok, .fail 0]).session = .image 0x00#8 1#16 ∧
    exec .iend (imageWith 0x00#8 1#16 [] [.ok, .fail 0])
      = .next (answered (closed (afterFlushFail (imageWith 0x00#8 1#16 [] [.ok, .fail 0]) [0x1B#8, 0x40#8]))
        .transportUnavailable) := ⟨rfl, rfl, rfl, rfl⟩

/-- A link that is silent from the start, and one that falls silent in the flush of IEND's second command. -/
theorem witness_SilentTransportBlocks :
    (Sends .prst { State.reset with link := ⟨[], .silent⟩ } ([] ++ [0x1B#8, 0x40#8] :: []) ∧
      AcceptsEach 0 ⟨[], .silent⟩ ⟨[], .silent⟩ ∧ Link.next ⟨[], .silent⟩ = none) ∧
    (Sends .iend { imageWith 0x00#8 1#16 [[dark]] [] with link := ⟨[.ok, .ok, .ok], .silent⟩ }
      ([[0x1B#8, 0x2A#8, 0x00#8, 0x01#8, 0x00#8, 0x80#8]] ++ [0x1B#8, 0x40#8] :: []) ∧
      AcceptsEach 1 ⟨[.ok, .ok, .ok], .silent⟩ ⟨[.ok], .silent⟩ ∧
      Link.next ⟨[.ok], .silent⟩ = some (.ok, ⟨[], .silent⟩) ∧ Link.next ⟨[], .silent⟩ = none) :=
  ⟨⟨⟨_, rfl, rfl, rfl⟩, rfl, rfl⟩, ⟨_, rfl, rfl, rfl⟩, ⟨_, ⟨_, rfl, rfl⟩, rfl⟩, rfl, rfl⟩

theorem witness_ModeFunctionsAsTabled :
    Config.suggested.wf = true ∧ ∀ v, 0x02#8 ≠ Config.suggested.modeCode v := by
  refine ⟨by decide, fun v => ?_⟩
  cases v <;> decide

/-- Every cell of a written row has a value: row groups 0 and 2 of an HH band. -/
theorem witness_PackByteInvertsEachLane :
    (∀ i < 8, ∃ c, bandRead (imageWith 0x21#8 1#16 (List.replicate 24 [dark]) []) (8 * 0 + i) 0 = some c) ∧
    (∀ i < 8, ∃ c, bandRead (imageWith 0x21#8 1#16 (List.replicate 24 [dark]) []) (8 * 2 + i) 0 = some c) := by
  decide +kernel

theorem witness_PackBandOrderAndLength :
    (∀ r < rowlimit .LL, ∀ x < (2#16).toNat, ∃ c,
      bandRead (imageWith 0x00#8 2#16 (List.replicate 8 [dark, light]) []) r x = some c) ∧
    (∀ r < rowlimit .HH, ∀ x < (1#16).toNat, ∃ c,
      bandRead (imageWith 0x21#8 1#16 (List.replicate 24 [dark]) []) r x = some c) := by decide +kernel

theorem witness_PolarityOfUniformBands :
    (∀ r < rowlimit .LL, ∀ x < (2#16).toNat,
      bandRead (imageWith 0x00#8 2#16 (List.replicate 8 [dark, dark]) []) r x = some dark) ∧
    (∀ r < rowlimit .HH, ∀ x < (1#16).toNat,
      bandRead (imageWith 0x21#8 1#16 (List.replicate 24 [light]) []) r x = some light) := by decide +kernel

theorem witness_PadBandAddsLightRows :
    (imageWith 0x00#8 1#16 (List.replicate 7 [dark]) []).rowcnt.toNat < rowlimit .LL ∧
    (imageWith 0x21#8 1#16 (List.replicate 23 [dark]) []).rowcnt.toNat < rowlimit .HH ∧
    (imageWith 0x21#8 1#16 [] []).rowcnt.toNat < rowlimit .HH := by decide

/-- A state of R29 with a delivery that completes a band, and what the step answers. -/
theorem witness_EveryStepKeepsR29 :
    ({ imageWith 0x00#8 1#16 (List.replicate 7 [dark]) [] with
      input := [.deliver (.transaction ⟨0x12#8, [.cells [dark]]⟩)] } : State).inv = true ∧
    (nextOf (step { imageWith 0x00#8 1#16 (List.replicate 7 [dark]) [] with
      input := [.deliver (.transaction ⟨0x12#8, [.cells [dark]]⟩)] })).isSome = true := by decide +kernel

/-- R29 and a transport that answers. -/
theorem witness_NoStepReadsUndefinedState_EveryInstructionCompletes :
    (imageWith 0x21#8 65535#16 [] [.fail 3]).inv = true ∧ (imageWith 0x21#8 65535#16 [] [.fail 3]).link.tail ≠ .silent := by
  decide

/-- The state of the whole-machine rules: a run that has printed one command and is given another. -/
def running : State :=
  { sent State.reset [0x1B#8, 0x40#8] ⟨[], .ok⟩ with input := [.deliver (.transaction ⟨0x02#8, []⟩)] }

/-- What its step answers. -/
def ran : State :=
  { answered (sent State.reset [0x1B#8, 0x40#8] ⟨[], .ok⟩) .ok with
    out := [0x1B#8, 0x40#8, 0x1B#8, 0x69#8]
    log := [.write [0x1B#8, 0x40#8], .flush, .write [0x1B#8, 0x69#8], .flush] }

theorem witness_HistoriesOnlyGrow_ParametersAreFixed : step running = .next ran := rfl

theorem witness_LogAccountsForOutput :
    Link.noReset running.link = true ∧ running.out = acceptedBytes running.log ∧ step running = .next ran :=
  ⟨rfl, rfl, rfl⟩

theorem witness_EveryCommandIsWrittenThenFlushed :
    Link.noReset running.link = true ∧ wholeEmits running.log = true ∧ step running = .next ran := ⟨rfl, rfl, rfl⟩

theorem witness_OutputStaysInTheGrammar :
    running.inv = true ∧ hostOnly running = true ∧
    LogInGrammar running.cfg (max 16 (5 + 3 * running.cfg.wmax.toNat)) running.log ∧ step running = .next ran := by
  refine ⟨by decide, by decide, fun c hc => ?_, rfl⟩
  have hcmd : c = [0x1B#8, 0x40#8] := by simpa [running, sent, State.reset] using hc
  subst hcmd
  exact ⟨by decide, .dReset, rfl, rfl, rfl⟩

/-- An instruction that stops and one that goes on. -/
theorem witness_NothingReadsTheHistories :
    exec .prst { State.reset with link := ⟨[], .silent⟩ } = .fault .transportBlocked ∧
    exec .cut State.reset = .next (answered (sent State.reset [0x1B#8, 0x69#8] ⟨[], .ok⟩) .ok) := ⟨rfl, rfl⟩

/-- A session that opens, one that stays and one that ends. -/
theorem witness_SessionTransitions :
    sessionAfter (.ibegin 0x00#8 1#16) State.reset = some (.image 0x00#8 1#16, 0, []) ∧
    sessionAfter .cut (imageWith 0x00#8 1#16 [] []) = some (.image 0x00#8 1#16, 0, []) ∧
    sessionAfter .iend (imageWith 0x00#8 1#16 [] []) = some (.idle, 0, []) :=
  ⟨by decide, by decide, by decide⟩

theorem witness_StandaloneCommandsLeaveTheSession :
    Instr.cut.port = .host ∧ imageOnly .cut = false ∧ (∀ m w, Instr.cut ≠ .ibegin m w) ∧
    exec .cut State.reset = .next (answered (sent State.reset [0x1B#8, 0x69#8] ⟨[], .ok⟩) .ok) ∧
    (answered (sent State.reset [0x1B#8, 0x69#8] ⟨[], .ok⟩) .ok).responses ≠ State.reset.responses :=
  ⟨rfl, rfl, fun _ _ h => (by cases h), rfl, by decide⟩

end Sys2Proof.Tests
end

/-! Host records, from the wire to the instruction: what the RBC takes is the instruction whose record was carried,
under every framing (00_scope.md R6, 30_encoding.md R61). -/

namespace Sys2Proof

/-- A byte sequence within its bound is decoded (R63). -/
theorem decodeBytes_of_length_le {most : Nat} {s : List Byte} (f : List Byte → Instr) (hop : Byte)
    (h : s.length ≤ most) : decodeBytes most f hop [.bytes s] = .ok (f s) := if_pos h

/-- A row within its bound is decoded (R63). -/
theorem decodeCells_of_length_le {most : Nat} {p : Row} (f : Row → Instr) (hop : Byte)
    (h : p.length ≤ most) : decodeCells most f hop [.cells p] = .ok (f p) := if_pos h

/-- The record of a well-formed host transaction decodes to it (R61, R63). Three of the transactions carry a sequence,
whose bound is what well-formedness adds. -/
theorem decodeHost_of_encode {cfg : Config} {i : Instr} {r : HostRecord} (hw : i.wellFormed cfg = true)
    (h : encode cfg i = .transaction r) : decodeHost r = .ok i := by
  cases i <;> cases h
  case bcupc c => exact decodeBytes_of_length_le .bcupc 0x0C#8 (of_decide_eq_true hw)
  case irowg s => exact decodeBytes_of_length_le .irowg 0x11#8 (of_decide_eq_true hw)
  case irowm p => exact decodeCells_of_length_le .irowm 0x12#8 (of_decide_eq_true hw)
  all_goals rfl

/-- The wire is decoded as the record that it carries (R61). -/
theorem decodeWire_of_read {Wire : Type} {F : HostFraming Wire} {wire : Wire} {r : HostRecord}
    (h : F.read wire = some r) : decodeWire F wire = decodeHost r := by
  unfold decodeWire
  rw [h]

namespace Machine

/-- The wire is taken as the record that it carries (R61). -/
theorem takeWire_of_read {Wire : Type} {F : HostFraming Wire} {wire : Wire} {r : HostRecord}
    (h : F.read wire = some r) (s : State) : takeWire F wire s = takeTransaction r s := by
  unfold takeWire
  rw [h]

/-- A record that decodes to an instruction is executed as that (R60, R61). -/
theorem takeTransaction_of_decode {r : HostRecord} {i : Instr} {s : State}
    (h : decode s.cfg (.transaction r) = .ok i) : takeTransaction r s = exec i s := by
  unfold takeTransaction
  rw [h]

/-- A step takes the first delivery, and consumes it (R21). -/
theorem step_of_input {s : State} {d : Delivery} {rest : List Delivery} (h : s.input = d :: rest) :
    step s = takeDelivery d { s with input := rest } := by
  unfold step
  rw [h]

end Machine

namespace Claims

open Sys2Proof.Machine

/-- Settles O48: a faithful framing gives back the record, and from there on no framing stands in what is done. -/
theorem noRuleDependsOnHostFraming : Obligations.NoRuleDependsOnHostFraming := by
  intro Wire F hF
  refine ⟨fun s i r hw henc => ?_, fun s r rest hwhole hin => ?_⟩
  · have hread : F.read (F.carry r) = some r := hF r (whole_of_encode hw henc)
    have hdec : decodeHost r = .ok i := decodeHost_of_encode hw henc
    exact ⟨(decodeWire_of_read hread).trans hdec,
      (takeWire_of_read hread s).trans (takeTransaction_of_decode hdec)⟩
  · calc step s
        = takeTransaction r { s with input := rest } := step_of_input hin
      _ = takeWire F (F.carry r) { s with input := rest } := (takeWire_of_read (hF r hwhole) _).symm

end Claims

end Sys2Proof

/-! The state of the RBC under every instruction and every step (10_state.md): its mode functions, what no step
changes, what no instruction reads, how a session opens and ends, and the invariant of R29. -/

namespace Sys2Proof

/-- A byte names no variant exactly when it is no variant's code (R24). -/
theorem variantOf_eq_none_iff {cfg : Config} {m : Byte} : variantOf cfg m = none ↔ ∀ v, m ≠ cfg.modeCode v := by
  constructor
  · intro h v
    unfold variantOf at h
    split_ifs at h with hLL hHL hLH hHH
    cases v
    exacts [hLL, hHL, hLH, hHH]
  · intro h
    simp [variantOf, h]

/-- R6's constraint on `MODE_CODE`. -/
theorem Config.modeCode_injective {cfg : Config} (h : cfg.wf = true) : Function.Injective cfg.modeCode := by
  have hnodup : ([.LL, .HL, .LH, .HH].map cfg.modeCode).Nodup := by
    simp only [Config.wf, Bool.and_eq_true, decide_eq_true_eq] at h
    obtain ⟨⟨-, hmodes⟩, -⟩ := h
    exact hmodes
  have hall : ∀ v : Variant, v ∈ [Variant.LL, .HL, .LH, .HH] := by rintro ⟨⟩ <;> decide
  exact fun v u hvu => List.inj_on_of_nodup_map hnodup (hall v) (hall u) hvu

/-- The code of a variant names that variant (R24). -/
theorem variantOf_modeCode {cfg : Config} (h : cfg.wf = true) (v : Variant) :
    variantOf cfg (cfg.modeCode v) = some v := by
  cases hu : variantOf cfg (cfg.modeCode v) with
  | none => exact absurd rfl (variantOf_eq_none_iff.mp hu v)
  | some u => rw [Config.modeCode_injective h (modeCode_of_variantOf hu)]

namespace Machine

/-- A device command's bytes that decode to an instruction are executed as that (R60, log 9). -/
theorem takeCommand_of_decode {bytes : List Byte} {i : Instr} {s : State}
    (h : decode s.cfg (.command bytes) = .ok i) : takeCommand bytes s = exec i s := by
  unfold takeCommand
  rw [h]

/-! ### What no step changes -/

/-- No meaning changes the parameters or the host's deliveries (R32). -/
theorem Built.fixed {s : State} {o : Result} (h : Built s o) :
    ∀ t, o = .next t → t.cfg = s.cfg ∧ t.input = s.input := by
  induction h with
  | stop => nofun
  | answer s t r h =>
    rintro _ ⟨⟩
    rw [h]
    exact ⟨rfl, rfl⟩
  | done s =>
    rintro _ ⟨⟩
    exact ⟨rfl, rfl⟩
  | emit s t bytes k h _ ih =>
    intro u hu
    have hcfg : t.cfg = s.cfg := by rw [h]
    have hinput : t.input = s.input := by rw [h]
    obtain ⟨l, hk⟩ | ⟨n, l, rfl⟩ | ⟨l, rfl⟩ | ⟨n, l, rfl⟩ | ⟨l, rfl⟩ := emitThen_next hu
    · simpa [hcfg, hinput] using ih _ u hk
    all_goals simp [hcfg, hinput]

/-- No instruction changes the parameters or the host's deliveries (R32). -/
theorem exec_fixed {i : Instr} {s t : State} (h : exec i s = .next t) : t.cfg = s.cfg ∧ t.input = s.input :=
  (exec_built i s).fixed t h

/-- No delivered record changes the parameters (R32). -/
theorem takeTransaction_cfg {r : HostRecord} {s t : State} (h : takeTransaction r s = .next t) : t.cfg = s.cfg := by
  obtain ⟨i, -, hi⟩ | rfl := takeTransaction_next h
  · exact (exec_fixed hi).1
  · exact raise_cfg _ s

/-- No delivery changes the parameters (R32). -/
theorem takeDelivery_cfg {d : Delivery} {s t : State} (h : takeDelivery d s = .next t) : t.cfg = s.cfg := by
  match d with
  | .deliver (.transaction r) => exact takeTransaction_cfg h
  | .deliver (.command bytes) =>
    obtain ⟨i, -, hi⟩ := takeCommand_next h
    exact (exec_fixed hi).1
  | .cut r =>
    obtain ⟨u, hu, rfl⟩ := cutByReset_next h
    exact (takeTransaction_cfg hu :)
  | .reset =>
    cases h
    rfl

/-- No step changes the parameters (R32). -/
theorem step_cfg {s t : State} (h : step s = .next t) : t.cfg = s.cfg := by
  obtain ⟨-, rfl⟩ | ⟨d, rest, -, hd⟩ := step_next h
  · rfl
  · exact (takeDelivery_cfg hd :)

/-! ### What no instruction reads -/

/-- Two lists that have grown by the same. -/
def GrownAlike {α : Type} (a a' b b' : List α) : Prop := ∃ d, b = a ++ d ∧ b' = a' ++ d

theorem GrownAlike.refl {α : Type} (a a' : List α) : GrownAlike a a' a a' := ⟨[], by simp⟩

theorem GrownAlike.append {α : Type} {a a' b b' : List α} (h : GrownAlike a a' b b') (d : List α) :
    GrownAlike a a' (b ++ d) (b' ++ d) := by
  obtain ⟨e, rfl, rfl⟩ := h
  exact ⟨e ++ d, by simp⟩

/-- `t` and `t'` differ in the histories only, which have grown by the same since `s` and `s'`; their `RESP` is the same
once they have answered. -/
structure Twins (s s' t t' : State) : Prop where
  session : t'.session = t.session
  rowcnt : t'.rowcnt = t.rowcnt
  band : t'.band = t.band
  cfg : t'.cfg = t.cfg
  input : t'.input = t.input
  link : t'.link = t.link
  out : GrownAlike s.out s'.out t.out t'.out
  log : GrownAlike s.log s'.log t.log t'.log
  responses : GrownAlike s.responses s'.responses t.responses t'.responses
  resp : t.responses = s.responses ∨ t'.resp = t.resp

/-- The same stop, or next states that are twins since `s` and `s'`. -/
inductive TwinResults (s s' : State) : Result → Result → Prop
  | fault (f : Fault) : TwinResults s s' (.fault f) (.fault f)
  | next {t t' : State} (h : Twins s s' t t') : TwinResults s s' (.next t) (.next t')

theorem Twins.start (s : State) (o : List Byte) (l : List LogEntry) (q : Option Response) (r : List Response) :
    Twins s { s with out := o, log := l, resp := q, responses := r } s
      { s with out := o, log := l, resp := q, responses := r } :=
  ⟨rfl, rfl, rfl, rfl, rfl, rfl, .refl _ _, .refl _ _, .refl _ _, .inl rfl⟩

section

variable {s s' t t' : State}

theorem Twins.respond (h : Twins s s' t t') (r : Response) : Twins s s' (respond r t) (respond r t') :=
  { h with responses := h.responses.append [r], resp := .inr rfl }

theorem Twins.endSession (h : Twins s s' t t') : Twins s s' (endSession t) (endSession t') :=
  { h with session := rfl, rowcnt := rfl, band := rfl }

theorem Twins.abandon (h : Twins s s' t t') : Twins s s' (abandon t) (abandon t') := by
  obtain hs | ⟨m, w, hs⟩ := session_cases t
  · rwa [abandon_of_idle hs, abandon_of_idle (h.session.trans hs)]
  · rw [abandon_of_image hs, abandon_of_image (h.session.trans hs)]
    exact h.endSession

theorem Twins.raise (h : Twins s s' t t') (r : Response) : Twins s s' (raise r t) (raise r t') := by
  by_cases hr : r = .transportUnavailable
  · subst hr
    exact h.abandon.respond _
  · rw [raise_of_ne hr, raise_of_ne hr]
    exact h.respond r

theorem Twins.resetRbc (h : Twins s s' t t') : Twins s s' (resetRbc t) (resetRbc t') :=
  { h with session := rfl, rowcnt := rfl, band := rfl, resp := .inr rfl }

/-- Both transports give the same answers, and both `Emit`s do the same with them (R45). -/
theorem Twins.emitThen (h : Twins s s' t t') (bytes : List Byte) {k : State → Result}
    (hk : ∀ u u', Twins s s' u u' → TwinResults s s' (k u) (k u')) :
    TwinResults s s' (emitThen bytes t k) (emitThen bytes t' k) := by
  simp only [Machine.emitThen, emit, h.link]
  rcases Link.next t.link with _ | ⟨_ | n | n, l⟩
  · exact .fault _
  · have hw : Twins s s' { t with link := l, out := t.out ++ bytes, log := t.log ++ [.write bytes] }
        { t' with link := l, out := t'.out ++ bytes, log := t'.log ++ [.write bytes] } :=
      { h with link := rfl, out := h.out.append _, log := h.log.append _ }
    simp only [flushLink]
    rcases Link.next l with _ | ⟨_ | n | n, l₂⟩
    · exact .fault _
    · exact hk _ _ { hw with link := rfl, log := hw.log.append _ }
    · refine .next (Twins.raise ?_ _)
      exact { hw with link := rfl, log := hw.log.append _ }
    · exact .next (Twins.resetRbc { hw with link := rfl })
  · refine .next (Twins.raise ?_ _)
    exact { h with link := rfl, out := h.out.append _, log := h.log.append _ }
  · exact .next (Twins.resetRbc { h with link := rfl, out := h.out.append _ })

theorem Twins.standalone (h : Twins s s' t t') (bytes : List Byte) :
    TwinResults s s' (standalone bytes t) (standalone bytes t') := by
  unfold Machine.standalone
  rw [h.session]
  cases t.session with
  | idle => exact h.emitThen bytes fun u u' hu => .next (hu.respond _)
  | image m w => exact .next (h.raise _)

theorem Twins.deviceCommand (h : Twins s s' t t') (bytes : List Byte) :
    TwinResults s s' (deviceCommand bytes t) (deviceCommand bytes t') :=
  h.emitThen bytes fun _ _ => .next

theorem Twins.bcupc (h : Twins s s' t t') (c : List Byte) :
    TwinResults s s' (execBcupc c t) (execBcupc c t') := by
  unfold execBcupc
  rw [h.session, h.cfg]
  cases t.session with
  | idle =>
    dsimp only
    split
    · exact h.emitThen _ fun u u' hu => .next (hu.respond _)
    · exact .next (h.raise _)
  | image m w => exact .next (h.raise _)

theorem Twins.ibegin (h : Twins s s' t t') (m : Byte) (w : U16) :
    TwinResults s s' (execIbegin m w t) (execIbegin m w t') := by
  unfold execIbegin
  rw [h.session, h.cfg]
  cases t.session with
  | idle =>
    dsimp only
    split
    · exact .next (h.raise _)
    · cases variantOf t.cfg m with
      | none => exact .next (h.raise _)
      | some v =>
        refine h.emitThen _ fun u u' hu => .next (Twins.respond ?_ _)
        exact { hu with session := rfl, rowcnt := rfl, band := rfl }
  | image m w => exact .next (h.raise _)

/-- Packing reads the band only (R130 to R132). -/
theorem packBand_congr {s t : State} (h : t.band = s.band) (v : Variant) (w : U16) :
    packBand t v w = packBand s v w := by
  simp only [packBand, packColumn, packByte, bandRead, h]

theorem Twins.bandComplete (h : Twins s s' t t') (m : Byte) (w : U16) (v : Variant) {k : State → Result}
    (hk : ∀ u u', Twins s s' u u' → TwinResults s s' (k u) (k u')) :
    TwinResults s s' (bandComplete m w v t k) (bandComplete m w v t' k) := by
  unfold Machine.bandComplete
  rw [packBand_congr h.band]
  cases packBand t v w with
  | none => exact .fault _
  | some data => exact h.emitThen _ fun u u' hu => hk _ _ { hu with rowcnt := rfl, band := rfl }

theorem Twins.acceptRow (h : Twins s s' t t') (m : Byte) (w : U16) (row : Row) :
    TwinResults s s' (acceptRow m w row t) (acceptRow m w row t') := by
  have hw : Twins s s' { bandWrite t t.rowcnt.toNat row with rowcnt := t.rowcnt + 1#5 }
      { bandWrite t' t.rowcnt.toNat row with rowcnt := t.rowcnt + 1#5 } :=
    { h with rowcnt := rfl, band := congrArg (Memory.write · _ row) h.band }
  unfold Machine.acceptRow
  rw [h.cfg, h.rowcnt]
  cases variantOf t.cfg m with
  | none => exact .fault _
  | some v =>
    dsimp only
    split
    · split
      · exact hw.bandComplete m w v fun u u' hu => .next (hu.respond _)
      · exact .next (hw.respond _)
    · exact .fault _

theorem Twins.rowTransaction (h : Twins s s' t t') (row : Row) :
    TwinResults s s' (rowTransaction row t) (rowTransaction row t') := by
  unfold Machine.rowTransaction
  rw [h.session]
  cases t.session with
  | idle => exact .next (h.raise _)
  | image m w =>
    dsimp only
    split
    · exact h.acceptRow m w row
    · exact .next (h.raise _)

theorem Twins.closeImage (h : Twins s s' t t') : TwinResults s s' (closeImage t) (closeImage t') :=
  h.emitThen _ fun _ _ hu => .next (hu.endSession.respond _)

theorem Twins.padBand (h : Twins s s' t t') (w : U16) (v : Variant) :
    Twins s s' (padBand w v t) (padBand w v t') :=
  { h with
    rowcnt := rfl
    band := by simp only [Machine.padBand, h.rowcnt, h.band] }

theorem Twins.iend (h : Twins s s' t t') : TwinResults s s' (execIend t) (execIend t') := by
  unfold execIend
  rw [h.session, h.cfg, h.rowcnt]
  cases t.session with
  | idle => exact .next (h.raise _)
  | image m w =>
    dsimp only
    split
    · exact h.closeImage
    · cases variantOf t.cfg m with
      | none => exact .fault _
      | some v =>
        dsimp only
        split
        · exact (h.padBand w v).bandComplete m w v fun _ _ => Twins.closeImage
        · exact .fault _

/-- Twins do the same under every instruction. The barcode settings send a configured byte, which twins share. -/
theorem Twins.exec (h : Twins s s' t t') (i : Instr) : TwinResults s s' (exec i t) (exec i t') := by
  have hcfg := h.cfg
  cases i with
  | prst | cut | pcut | lfr _ | pmode _ | dbl _ | ul _ => exact h.standalone _
  | bch v | bcw v | bctp v | bcf v =>
    simpa only [Machine.exec, execBch, execBcw, execBctp, execBcf, hcfg] using h.standalone _
  | bcupc c => exact h.bcupc c
  | ibegin m w => exact h.ibegin m w
  | irowg _ | irowm _ => exact h.rowTransaction _
  | iend => exact h.iend
  | dBch v | dBcw v | dBctp v | dBcf v =>
    simpa only [Machine.exec, execDBch, execDBcw, execDBctp, execDBcf, hcfg] using h.deviceCommand _
  | dReset | dCut | dPcut | dLfr _ | dPmode _ | dDbl _ | dUl _ | dBcprint _ _ | dImgband _ _ _ =>
    exact h.deviceCommand _

/-- A twin has every field but the histories and `RESP` from the other. -/
theorem Twins.eq (h : Twins s s' t t') :
    t' = { t with out := t'.out, log := t'.log, resp := t'.resp, responses := t'.responses } := by
  rw [← h.session, ← h.rowcnt, ← h.band, ← h.cfg, ← h.input, ← h.link]

end

/-! ### How a session opens and ends -/

/-- A link on which no reset arrives gives no reset as its next answer, and goes on so (R251). -/
theorem Link.noReset_next {l l' : Link} {a : Answer} (h : Link.noReset l = true) (ha : Link.next l = some (a, l')) :
    (∀ k, a ≠ .reset k) ∧ Link.noReset l' = true := by
  obtain ⟨answers, tail⟩ := l
  cases answers with
  | nil => cases tail <;> cases ha <;> exact ⟨nofun, rfl⟩
  | cons b rest =>
    cases ha
    simp only [Link.noReset, List.all_cons, Bool.and_eq_true] at h ⊢
    refine ⟨?_, h.2⟩
    rintro k rfl
    simp at h

/-- `Emit` is cut only where the link held a reset (R251). -/
theorem noReset_of_emit_cut {bytes : List Byte} {s t : State} (h : emit bytes s = .cut t) :
    Link.noReset s.link = false := by
  by_contra hn
  rw [Bool.not_eq_false] at hn
  unfold emit flushLink at h
  split at h
  · cases h
  · next l hw =>
    obtain ⟨-, hl⟩ := Link.noReset_next hn hw
    dsimp only at h
    split at h
    · cases h
    · cases h
    · cases h
    · next k l₂ hf => exact (Link.noReset_next hl hf).1 k rfl
  · cases h
  · next k l hw => exact (Link.noReset_next hn hw).1 k rfl

/-- A reset that waited in the link of `s` cut the meaning that went from `s` to `t`: the RBC is as after reset, with no
response (R251). -/
def CutShort (s t : State) : Prop := Link.noReset s.link = false ∧ t = resetRbc t ∧ t.responses = s.responses

/-- What becomes of the session at an `Emit`: the rest of the meaning takes it over, or the transport failed, or a reset
cut it (R227, R251). -/
theorem emitThen_session {bytes : List Byte} {s t : State} {k : State → Result} (h : emitThen bytes s k = .next t) :
    (∃ u, k u = .next t ∧ u.session = s.session) ∨
    t.session = .idle ∧ (t.responses = s.responses ++ [.transportUnavailable] ∨ CutShort s t) := by
  unfold emitThen at h
  have hcut := @noReset_of_emit_cut bytes s
  have hc := emit_cases bytes s
  generalize emit bytes s = e at h hc hcut
  cases hc with
  | done l => exact .inl ⟨_, h, rfl⟩
  | writeFailed | flushFailed =>
    cases h
    exact .inr ⟨by simp [raise_transportUnavailable], .inl (raise_responses _ _)⟩
  | writeCut | flushCut =>
    cases h
    exact .inr ⟨rfl, .inr ⟨hcut rfl, rfl, rfl⟩⟩
  | blocked => cases h

/-- The session is as it was, or it was ended by a transport failure or by a reset (R227, R251). -/
def StaysUnlessCut (s t : State) : Prop :=
  t.session = s.session ∨
  t.session = .idle ∧ (t.responses = s.responses ++ [.transportUnavailable] ∨ CutShort s t)

theorem raise_stays {r : Response} (hr : r ≠ .transportUnavailable) (s : State) : StaysUnlessCut s (raise r s) := by
  rw [raise_of_ne hr]
  exact .inl rfl

/-- An `Emit` keeps the session if what follows it does. -/
theorem emitThen_stays {bytes : List Byte} {s t : State} {f : State → State}
    (h : emitThen bytes s (fun u => .next (f u)) = .next t) (hf : ∀ u, (f u).session = u.session) :
    StaysUnlessCut s t := by
  obtain ⟨u, hu, hs⟩ | hended := emitThen_session h
  · cases hu
    exact .inl ((hf u).trans hs)
  · exact .inr hended

theorem standalone_stays {bytes : List Byte} {s t : State} (h : standalone bytes s = .next t) :
    StaysUnlessCut s t := by
  unfold standalone at h
  split at h
  · cases h
    exact raise_stays (by decide) s
  · exact emitThen_stays h fun _ => rfl

theorem deviceCommand_stays {bytes : List Byte} {s t : State} (h : deviceCommand bytes s = .next t) :
    StaysUnlessCut s t :=
  emitThen_stays h fun _ => rfl

theorem bcupc_stays {c : List Byte} {s t : State} (h : execBcupc c s = .next t) : StaysUnlessCut s t := by
  unfold execBcupc at h
  split at h
  · cases h
    exact raise_stays (by decide) s
  · split at h
    · exact emitThen_stays h fun _ => rfl
    · cases h
      exact raise_stays (by decide) s

theorem acceptRow_stays {m : Byte} {w : U16} {row : Row} {s t : State} (h : acceptRow m w row s = .next t) :
    StaysUnlessCut s t := by
  unfold acceptRow bandComplete at h
  split at h
  · cases h
  · split at h
    · dsimp only at h
      split at h
      · split at h
        · cases h
        · exact (emitThen_stays h fun _ => rfl :)
      · cases h
        exact .inl rfl
    · cases h

theorem rowTransaction_stays {row : Row} {s t : State} (h : rowTransaction row s = .next t) : StaysUnlessCut s t := by
  unfold rowTransaction at h
  split at h
  · cases h
    exact raise_stays (by decide) s
  · split at h
    · exact acceptRow_stays h
    · cases h
      exact raise_stays (by decide) s

/-- IBEGIN opens a session with its own mode and width, or leaves the session as it was (R187). -/
theorem ibegin_session {m : Byte} {w : U16} {s t : State} (h : execIbegin m w s = .next t) :
    s.session = .idle ∧ t.session = .image m w ∨ StaysUnlessCut s t := by
  unfold execIbegin at h
  split at h
  · cases h
    exact .inr (raise_stays (by decide) s)
  · next hs =>
    split at h
    · cases h
      exact .inr (raise_stays (by decide) s)
    · split at h
      · cases h
        exact .inr (raise_stays (by decide) s)
      · obtain ⟨u, hu, -⟩ | hended := emitThen_session h
        · cases hu
          exact .inl ⟨hs, rfl⟩
        · exact .inr (.inr hended)

theorem closeImage_session {s t : State} (h : closeImage s = .next t) : t.session = .idle := by
  obtain ⟨u, hu, -⟩ | ⟨hidle, -⟩ := emitThen_session h
  · cases hu
    rfl
  · exact hidle

/-- After IEND no session is open, however it went (R188). -/
theorem iend_session {s t : State} (h : execIend s = .next t) : t.session = .idle := by
  unfold execIend bandComplete at h
  split at h
  · next hs =>
    cases h
    exact hs
  · split at h
    · exact closeImage_session h
    · split at h
      · cases h
      · split at h
        · split at h
          · cases h
          · obtain ⟨u, hu, -⟩ | ⟨hidle, -⟩ := emitThen_session h
            · exact closeImage_session hu
            · exact hidle
        · cases h

/-- Every instruction leaves the session as it was, unless it is IEND or IBEGIN, or is cut. -/
theorem exec_session {i : Instr} {s t : State} (h : exec i s = .next t) :
    (∃ m w, i = .ibegin m w ∧ s.session = .idle ∧ t.session = .image m w) ∨
    (i = .iend ∧ t.session = .idle) ∨ StaysUnlessCut s t := by
  cases i with
  | ibegin m w =>
    obtain ⟨hs, ht⟩ | hstays := ibegin_session h
    · exact .inl ⟨m, w, rfl, hs, ht⟩
    · exact .inr (.inr hstays)
  | iend => exact .inr (.inl ⟨rfl, iend_session h⟩)
  | bcupc c => exact .inr (.inr (bcupc_stays h))
  | irowg _ | irowm _ => exact .inr (.inr (rowTransaction_stays h))
  | prst | cut | pcut | lfr _ | pmode _ | dbl _ | ul _ | bch _ | bcw _ | bctp _ | bcf _ =>
    exact .inr (.inr (standalone_stays h))
  | dReset | dCut | dPcut | dLfr _ | dPmode _ | dDbl _ | dUl _ | dBcprint _ _ | dImgband _ _ _ | dBch _ | dBcw _
  | dBctp _ | dBcf _ =>
    exact .inr (.inr (deviceCommand_stays h))

/-! ### The invariant of R29 -/

/-- What a meaning may answer from a state of R29: a next state of R29, or the stop of a transport that never answers
(R258). -/
inductive KeepsInv : Result → Prop
  | next {t : State} (h : t.inv = true) : KeepsInv (.next t)
  | blocked : KeepsInv (.fault .transportBlocked)

theorem inv_respond {s : State} (h : s.inv = true) (r : Response) : (respond r s).inv = true :=
  (inv_congr rfl rfl rfl rfl).trans h

theorem inv_resetRbc {s : State} (h : s.cfg.wf = true) : (resetRbc s).inv = true := inv_of_idle h rfl rfl rfl

theorem inv_endSession {s : State} (h : s.cfg.wf = true) : (endSession s).inv = true := inv_of_idle h rfl rfl rfl

/-- Abandoning a session leads to a state of R29, also while its band is full. -/
theorem inv_abandon {s : State} (hc : s.cfg.wf = true)
    (hi : s.session = .idle → s.rowcnt = 0#5 ∧ s.band = []) : (abandon s).inv = true := by
  obtain hs | ⟨m, w, hs⟩ := session_cases s
  · rw [abandon_of_idle hs]
    exact inv_of_idle hc hs (hi hs).1 (hi hs).2
  · rw [abandon_of_image hs]
    exact inv_endSession hc

/-- An error keeps R29 (R225, R227). -/
theorem inv_raise {s : State} (h : s.inv = true) (r : Response) : (raise r s).inv = true := by
  by_cases hr : r = .transportUnavailable
  · subst hr
    exact inv_respond (inv_abandon (inv_cfg h) (inv_idle h)) _
  · rw [raise_of_ne hr]
    exact inv_respond h r

/-- However an `Emit` ends, R29 holds afterwards if the rest of the meaning brings it about. Before the `Emit` the band
may be full, which R29 excludes. -/
theorem emitThen_keepsInv {bytes : List Byte} {s : State} {k : State → Result} (hc : s.cfg.wf = true)
    (hi : s.session = .idle → s.rowcnt = 0#5 ∧ s.band = [])
    (hk : ∀ l o g, KeepsInv (k { s with link := l, out := o, log := g })) : KeepsInv (emitThen bytes s k) := by
  unfold emitThen
  have hcase := emit_cases bytes s
  generalize emit bytes s = e at hcase
  cases hcase with
  | done => exact hk _ _ _
  | writeFailed | flushFailed =>
    refine .next (inv_respond (inv_abandon ?_ ?_) _)
    exacts [hc, hi]
  | writeCut | flushCut => exact .next (inv_resetRbc hc)
  | blocked => exact .blocked

/-- An `Emit` from a state of R29 gives one back to the rest of the meaning. -/
theorem emitThen_keepsInv_of_inv {bytes : List Byte} {s : State} {k : State → Result} (h : s.inv = true)
    (hk : ∀ u : State, u.inv = true → KeepsInv (k u)) : KeepsInv (emitThen bytes s k) :=
  emitThen_keepsInv (inv_cfg h) (inv_idle h) fun _ _ _ => hk _ ((inv_congr rfl rfl rfl rfl).trans h)

section

variable {s : State}

theorem standalone_keepsInv (h : s.inv = true) (bytes : List Byte) : KeepsInv (standalone bytes s) := by
  unfold standalone
  split
  · exact .next (inv_raise h _)
  · exact emitThen_keepsInv_of_inv h fun u hu => .next (inv_respond hu _)

theorem deviceCommand_keepsInv (h : s.inv = true) (bytes : List Byte) : KeepsInv (deviceCommand bytes s) :=
  emitThen_keepsInv_of_inv h fun _ => .next

theorem bcupc_keepsInv (h : s.inv = true) (c : List Byte) : KeepsInv (execBcupc c s) := by
  unfold execBcupc
  split
  · exact .next (inv_raise h _)
  · split
    · exact emitThen_keepsInv_of_inv h fun u hu => .next (inv_respond hu _)
    · exact .next (inv_raise h _)

/-- The session IBEGIN opens is one of R29: its width and its mode have been checked (R187). -/
theorem ibegin_keepsInv (h : s.inv = true) (m : Byte) (w : U16) : KeepsInv (execIbegin m w s) := by
  have hc := inv_cfg h
  unfold execIbegin
  split
  · exact .next (inv_raise h _)
  · split
    · exact .next (inv_raise h _)
    · next hw =>
      split
      · exact .next (inv_raise h _)
      · next v hv =>
        refine emitThen_keepsInv hc (inv_idle h) fun l o g => .next (inv_respond ?_ _)
        have hwidth : 1 ≤ w.toNat ∧ w.toNat ≤ s.cfg.wmax.toNat := by bv_omega
        exact inv_of_image hc rfl hv hwidth.1 hwidth.2 (rowlimit_pos v) rfl nofun

/-- A listed row reads as one of the rows that are listed with its number. -/
theorem Memory.read_of_mem {m : Memory} {r : Nat} (h : r ∈ m.map Prod.fst) :
    ∃ row ∈ m.map Prod.snd, Memory.read m r = some row := by
  induction m with
  | nil => cases h
  | cons e rest ih =>
    obtain ⟨a, row⟩ := e
    by_cases ha : a = r
    · exact ⟨row, List.mem_cons_self, if_pos ha⟩
    · obtain ⟨row', hmem, hread⟩ := ih (List.mem_of_ne_of_mem (Ne.symm ha) h)
      exact ⟨row', List.mem_cons_of_mem _ hmem, (if_neg ha).trans hread⟩

/-- The rows below `n` are written, each with `w` cells. -/
def RowsWritten (m : Memory) (n w : Nat) : Prop := ∀ r < n, ∃ row, Memory.read m r = some row ∧ row.length = w

/-- R29's words on the band say that the rows below `ROWCNT` can be read. -/
theorem rowsWritten_of_range {m : Memory} {n w : Nat} (hr : m.map Prod.fst = List.range n)
    (hw : ∀ row ∈ m.map Prod.snd, row.length = w) : RowsWritten m n w := by
  intro r hlt
  obtain ⟨row, hmem, hread⟩ := Memory.read_of_mem (m := m) (r := r) (by rwa [hr, List.mem_range])
  exact ⟨row, hread, hw row hmem⟩

/-- Values that are all there are collected. -/
theorem collect_of_forall {α : Type} {l : List (Option α)} (h : ∀ o ∈ l, ∃ a, o = some a) :
    ∃ as, collect l = some as := by
  induction l with
  | nil => exact ⟨[], rfl⟩
  | cons o rest ih =>
    obtain ⟨a, rfl⟩ := h o List.mem_cons_self
    obtain ⟨as, has⟩ := ih fun o ho => h o (List.mem_cons_of_mem _ ho)
    exact ⟨a :: as, by simp [collect, has]⟩

/-- The same for the values of a function on the numbers below `n`, as the packer collects them (R130 to R132). -/
theorem collect_range {α : Type} {f : Nat → Option α} {n : Nat} (h : ∀ i < n, ∃ a, f i = some a) :
    ∃ as, collect ((List.range n).map f) = some as := by
  refine collect_of_forall fun o ho => ?_
  obtain ⟨i, hi, rfl⟩ := List.mem_map.mp ho
  exact h i (List.mem_range.mp hi)

/-- A full band packs: every cell the packer reads holds a value (R130 to R132). -/
theorem packBand_of_rowsWritten {v : Variant} {w : U16} (h : RowsWritten s.band (rowlimit v) w.toNat) :
    ∃ data, packBand s v w = some data := by
  have hcell : ∀ r < rowlimit v, ∀ x < w.toNat, ∃ c, bandRead s r x = some c := by
    intro r hr x hx
    obtain ⟨row, hread, hlen⟩ := h r hr
    exact ⟨row[x], by simp [bandRead, hread, hlen, hx]⟩
  have hcolumn : ∀ x < w.toNat, ∃ bs, packColumn s (density v) x = some bs := by
    intro x hx
    refine collect_range fun g hg => ?_
    have hbyte : ∀ i < 8, ∃ c, bandRead s (8 * g + i) x = some c := by
      intro i hi
      refine hcell _ ?_ x hx
      rw [rowlimit_eq]
      omega
    obtain ⟨cells, hcells⟩ := collect_range hbyte
    exact ⟨packCells cells, by simp [packByte, hcells]⟩
  obtain ⟨columns, hcolumns⟩ := collect_range hcolumn
  exact ⟨columns.flatten, by simp [packBand, hcolumns]⟩

/-- A full band is sent, and the rest of the meaning goes on with the session and an empty accumulator (R136). -/
theorem bandComplete_keepsInv {m : Byte} {w : U16} {v : Variant} {k : State → Result} (hc : s.cfg.wf = true)
    (hs : s.session = .image m w) (hfull : RowsWritten s.band (rowlimit v) w.toNat)
    (hk : ∀ l o g, KeepsInv (k { s with link := l, out := o, log := g, rowcnt := 0#5, band := [] })) :
    KeepsInv (bandComplete m w v s k) := by
  obtain ⟨data, hdata⟩ := packBand_of_rowsWritten hfull
  unfold bandComplete
  rw [hdata]
  exact emitThen_keepsInv hc (fun hidle => by rw [hs] at hidle; cases hidle) fun l o g => hk l o g

/-- A session of R29 whose accumulator is emptied is one (R136). -/
theorem inv_of_empty_band {t : State} {m : Byte} {w : U16} (h : s.inv = true) (hs : s.session = .image m w)
    (hcfg : t.cfg = s.cfg) (hses : t.session = s.session) (hrow : t.rowcnt = 0#5) (hband : t.band = []) :
    t.inv = true := by
  obtain ⟨v, hv, h1, h2, -, -, -⟩ := inv_image h hs
  refine inv_of_image (v := v) (hcfg ▸ inv_cfg h) (hses.trans hs) (hcfg ▸ hv) h1 (hcfg ▸ h2) ?_ ?_ ?_
  · rw [hrow]
    exact rowlimit_pos v
  · rw [hrow, hband]
    rfl
  · rw [hband]
    nofun

/-- The next row of a band is written below the others (R40, R104). -/
theorem Memory.write_next_row {m : Memory} {n w : Nat} {row : Row} (hrange : m.map Prod.fst = List.range n)
    (hrows : ∀ r ∈ m.map Prod.snd, r.length = w) (hlen : row.length = w) :
    (Memory.write m n row).map Prod.fst = List.range (n + 1) ∧
      ∀ r ∈ (Memory.write m n row).map Prod.snd, r.length = w := by
  have hwrite : Memory.write m n row = m ++ [(n, row)] := by
    refine Memory.write_append _ _ _ fun e he => ?_
    rw [← List.mem_range, ← hrange]
    exact List.mem_map_of_mem he
  rw [hwrite, List.map_append, List.map_append, hrange, List.range_succ]
  exact ⟨rfl, by simpa [or_imp, forall_and, hlen] using hrows⟩

/-- The row counter does not wrap below the band height (R26). -/
theorem rowcnt_succ {n : BitVec 5} {v : Variant} (h : n.toNat < rowlimit v) : (n + 1#5).toNat = n.toNat + 1 := by
  have := rowlimit_le v
  bv_omega

/-- The row that comes next keeps R29 or fills the band, and then the band is sent (R104, R136). -/
theorem acceptRow_keepsInv {m : Byte} {w : U16} {row : Row} (h : s.inv = true) (hs : s.session = .image m w)
    (hlen : row.length = w.toNat) : KeepsInv (acceptRow m w row s) := by
  have hc := inv_cfg h
  obtain ⟨v, hv, h1, h2, hlt, hrange, hrows⟩ := inv_image h hs
  obtain ⟨hrange', hrows'⟩ := Memory.write_next_row hrange hrows hlen
  unfold acceptRow
  simp only [hv, hlt, if_true]
  split
  · next hfull =>
    rw [← rowcnt_succ hlt, hfull] at hrange'
    refine bandComplete_keepsInv hc hs (rowsWritten_of_range hrange' hrows') fun l o g => .next (inv_respond ?_ _)
    exact inv_of_empty_band h hs rfl rfl rfl rfl
  · next hnot =>
    rw [rowcnt_succ hlt] at hnot
    refine .next (inv_respond ?_ _)
    refine inv_of_image hc hs hv h1 h2 ?_ ?_ hrows'
    · rw [rowcnt_succ hlt]
      omega
    · rw [rowcnt_succ hlt]
      exact hrange'

theorem rowTransaction_keepsInv (h : s.inv = true) (row : Row) : KeepsInv (rowTransaction row s) := by
  unfold rowTransaction
  split
  · exact .next (inv_raise h _)
  · next m w hs =>
    split
    · next hlen => exact acceptRow_keepsInv h hs hlen
    · exact .next (inv_raise h _)

theorem closeImage_keepsInv (h : s.inv = true) : KeepsInv (closeImage s) :=
  emitThen_keepsInv_of_inv h fun _ hu => .next (inv_respond (inv_endSession (inv_cfg hu)) _)

/-- Padding completes a band of R29: the rows from `ROWCNT` on become light rows (R134). -/
theorem rowsWritten_padBand {v : Variant} {w : U16} (h : RowsWritten s.band s.rowcnt.toNat w.toNat) :
    RowsWritten (padBand w v s).band (rowlimit v) w.toNat := by
  intro r hr
  simp only [padBand, Memory.read_foldl_write, List.mem_range'_1]
  split
  · exact ⟨_, rfl, List.length_replicate⟩
  · exact h r (by omega)

theorem iend_keepsInv (h : s.inv = true) : KeepsInv (execIend s) := by
  have hc := inv_cfg h
  unfold execIend
  split
  · exact .next (inv_raise h _)
  · next m w hs =>
    obtain ⟨v, hv, -, -, hlt, hrange, hrows⟩ := inv_image h hs
    split
    · exact closeImage_keepsInv h
    · simp only [hv, hlt, if_true]
      have hfull := rowsWritten_padBand (v := v) (rowsWritten_of_range hrange hrows)
      refine bandComplete_keepsInv hc hs hfull fun l o g => ?_
      exact closeImage_keepsInv (inv_of_empty_band h hs rfl rfl rfl rfl)

/-- Every instruction keeps R29, or the transport never answers. -/
theorem exec_keepsInv (h : s.inv = true) (i : Instr) : KeepsInv (exec i s) := by
  cases i with
  | bcupc c => exact bcupc_keepsInv h c
  | ibegin m w => exact ibegin_keepsInv h m w
  | irowg _ | irowm _ => exact rowTransaction_keepsInv h _
  | iend => exact iend_keepsInv h
  | prst | cut | pcut | lfr _ | pmode _ | dbl _ | ul _ | bch _ | bcw _ | bctp _ | bcf _ =>
    exact standalone_keepsInv h _
  | dReset | dCut | dPcut | dLfr _ | dPmode _ | dDbl _ | dUl _ | dBcprint _ _ | dImgband _ _ _ | dBch _ | dBcw _
  | dBctp _ | dBcf _ =>
    exact deviceCommand_keepsInv h _

/-- What a delivery may answer from a state of R29: what a meaning may, or a refusal of what is no record and no device
command (R61, R77). -/
inductive DeliveryKeepsInv : Result → Prop
  | taken {o : Result} (h : KeepsInv o) : DeliveryKeepsInv o
  | malformedTransaction : DeliveryKeepsInv (.refused .malformedTransaction)
  | malformedCommand : DeliveryKeepsInv (.refused .malformedCommand)

theorem takeTransaction_keepsInv (h : s.inv = true) (r : HostRecord) : DeliveryKeepsInv (takeTransaction r s) := by
  unfold takeTransaction
  split
  · exact .taken (exec_keepsInv h _)
  · exact .taken (.next (inv_raise h _))
  · exact .malformedTransaction

theorem takeCommand_keepsInv (h : s.inv = true) (bytes : List Byte) : DeliveryKeepsInv (takeCommand bytes s) := by
  unfold takeCommand
  split
  · exact .taken (exec_keepsInv h _)
  · exact .malformedCommand

/-- A reset before the response keeps what a delivery keeps (R251). -/
theorem cutByReset_keepsInv {o : Result} (h : DeliveryKeepsInv o) (before : State) :
    DeliveryKeepsInv (cutByReset before o) := by
  obtain ⟨ht⟩ | _ | _ := h
  · cases ht with
    | next ht => exact .taken (.next (inv_resetRbc (inv_cfg (s := _) ht)))
    | blocked => exact .taken .blocked
  · exact .malformedTransaction
  · exact .malformedCommand

theorem takeDelivery_keepsInv (h : s.inv = true) (d : Delivery) : DeliveryKeepsInv (takeDelivery d s) := by
  match d with
  | .deliver (.transaction r) => exact takeTransaction_keepsInv h r
  | .deliver (.command bytes) => exact takeCommand_keepsInv h bytes
  | .cut r => exact cutByReset_keepsInv (takeTransaction_keepsInv h r) s
  | .reset => exact .taken (.next (inv_resetRbc (inv_cfg h)))

/-- Every step keeps R29, or the transport never answers, or the delivery was no record and no device command. -/
theorem step_keepsInv (h : s.inv = true) : DeliveryKeepsInv (step s) := by
  unfold step
  split
  · exact .taken (.next h)
  · refine takeDelivery_keepsInv ?_ _
    exact (inv_congr rfl rfl rfl rfl).trans h

end

end Machine

namespace Claims

open Sys2Proof.Machine

/-- Settles O36: every delivery keeps R29. -/
theorem everyStepKeepsR29 : Obligations.EveryStepKeepsR29 := by
  intro s t h ht
  have hstep := step_keepsInv h
  rw [ht] at hstep
  obtain ⟨⟨hinv⟩⟩ := hstep
  exact hinv

/-- Settles O37: the outcomes that a delivery in a state of R29 may have are the safe ones. -/
theorem noStepReadsUndefinedState : Obligations.NoStepReadsUndefinedState := by
  intro s h
  have hstep := step_keepsInv h
  generalize step s = o at hstep
  cases hstep with
  | taken ht =>
    cases ht with
    | next => exact .inl ⟨_, rfl⟩
    | blocked => exact .inr (.inl rfl)
  | malformedTransaction => exact .inr (.inr (.inl rfl))
  | malformedCommand => exact .inr (.inr (.inr rfl))

/-- Settles O43: two states that differ in the histories only are twins, and twins stay twins. -/
theorem nothingReadsTheHistories : Obligations.NothingReadsTheHistories := by
  intro i s o l q r
  have h := (Twins.start s o l q r).exec i
  generalize exec i s = a at h
  generalize exec i _ = b at h
  cases h with
  | fault f => exact ⟨fun _ => id, nofun⟩
  | @next t t' h =>
    refine ⟨nofun, ?_⟩
    rintro _ ⟨⟩
    obtain ⟨dOut, hout, hout'⟩ := h.out
    obtain ⟨dLog, hlog, hlog'⟩ := h.log
    obtain ⟨dResp, hresp, hresp'⟩ := h.responses
    refine ⟨dOut, dLog, dResp, t'.resp, hout, hlog, hresp, fun hne => ?_, ?_⟩
    · exact h.resp.resolve_left (by simpa [hresp] using hne)
    · rw [h.eq, hout', hlog', hresp']

/-- Settles O44, by what a meaning is built of. -/
theorem parametersAreFixed : Obligations.ParametersAreFixed := ⟨fun _ _ _ => exec_fixed, fun _ _ => step_cfg⟩

/-- Settles O45, by the ways an instruction can leave the session. -/
theorem sessionTransitions : Obligations.SessionTransitions := by
  intro i s t h
  obtain ⟨m, w, rfl, hs, ht⟩ | ⟨rfl, ht⟩ | hsame | ⟨ht, hended⟩ := exec_session h
  · simp [hs, ht]
  · simp [ht]
  · refine ⟨fun m w hs ht => ?_, fun m w hs => .inl (hsame.trans hs)⟩
    rw [hsame, hs] at ht
    cases ht
  · refine ⟨fun m w _ hopen => ?_, fun m w _ => .inr ⟨ht, .inr hended⟩⟩
    rw [ht] at hopen
    cases hopen

/-- Settles O17, at the port of each encoding. -/
theorem stepRunsTheDecodedInstruction : Obligations.StepRunsTheDecodedInstruction := by
  intro s e rest i hin hdec
  rw [step_of_input hin]
  cases e with
  | transaction r => exact takeTransaction_of_decode hdec
  | command bytes => exact takeCommand_of_decode hdec

/-- Settles O21: the fields are as `State.reset` has them, and the step takes the reset. -/
theorem resetStateIsAsTabled : Obligations.ResetStateIsAsTabled :=
  ⟨rfl, rfl, rfl, rfl, rfl, rfl, rfl, rfl, fun _ _ hin => step_of_input hin⟩

/-- Settles O29, by the injectivity of the mode codes. -/
theorem modeFunctionsAsTabled : Obligations.ModeFunctionsAsTabled := by
  refine fun cfg h => ⟨variantOf_modeCode h, fun m => variantOf_eq_none_iff.mpr, fun v => ?_⟩
  cases v <;> exact ⟨rfl, rfl⟩

/-- Settles O35: reset is IDLE with an empty band, and the suggested parameters meet R6. -/
theorem resetKeepsR29 : Obligations.ResetKeepsR29 := inv_of_idle (by decide) rfl rfl rfl

end Claims

end Sys2Proof

/-! The two histories and the transport (20_memory.md): what every step appends to `OUT` and `LOG`, where the RBC gets
stuck, and that it goes on while the transport answers. -/

namespace Sys2Proof

namespace Claims

open Sys2Proof.Machine

/-! ### The words on `LOG` -/

theorem acceptedBytes_append (a b : List LogEntry) : acceptedBytes (a ++ b) = acceptedBytes a ++ acceptedBytes b := by
  induction a with
  | nil => rfl
  | cons e rest ih => cases e <;> simp [acceptedBytes, ih]

/-- Whole `Emit`s after whole `Emit`s are whole `Emit`s (R45). -/
theorem wholeEmits_append {a b : List LogEntry} (ha : wholeEmits a = true) (hb : wholeEmits b = true) :
    wholeEmits (a ++ b) = true := by
  fun_induction wholeEmits a with
  | case1 => exact hb
  | case2 c rest ih | case3 c rest ih => exact ih ha
  | case4 c k rest ih =>
    rw [Bool.and_eq_true] at ha
    exact Bool.and_eq_true_iff.mpr ⟨ha.1, ih ha.2⟩
  | case5 => cases ha

/-- A log of accepted commands determines the commands. -/
theorem accepted_injective : Function.Injective accepted := by
  intro cs
  induction cs with
  | nil =>
    rintro (_ | ⟨d, ds⟩) h
    · rfl
    · cases h
  | cons c cs ih =>
    rintro (_ | ⟨d, ds⟩) h
    · cases h
    · simp only [accepted, List.map_cons, List.flatten_cons, List.cons_append, List.nil_append, List.cons.injEq,
        LogEntry.write.injEq, true_and] at h
      rw [h.1, ih h.2]

end Claims

namespace Machine

open Sys2Proof.Claims

/-! ### What an `Emit` leaves of the link -/

/-- The state an `Emit` ends in, unless the transport never answers. -/
def EmitResult.state? : EmitResult → Option State
  | .done s | .failed s | .cut s => some s
  | .blocked => none

/-- What every answer keeps of the link, an `Emit` keeps; and an `Emit` blocks only on such a link with no answer
(R44). -/
theorem emit_link {P : Link → Prop} (hP : ∀ l a l', P l → Link.next l = some (a, l') → P l') (bytes : List Byte)
    {s : State} (h : P s.link) :
    (∀ t, (emit bytes s).state? = some t → P t.link) ∧
      (emit bytes s = .blocked → ∃ l, P l ∧ Link.next l = none) := by
  unfold emit flushLink
  split
  · next hw => exact ⟨nofun, fun _ => ⟨_, h, hw⟩⟩
  · next l hw =>
    have hl := hP _ _ _ h hw
    dsimp only
    split
    · next hf => exact ⟨nofun, fun _ => ⟨_, hl, hf⟩⟩
    all_goals
      next hf =>
        refine ⟨?_, nofun⟩
        rintro _ ⟨⟩
        exact hP _ _ _ hl hf
  all_goals
    next hw =>
      refine ⟨?_, nofun⟩
      rintro _ ⟨⟩
      exact hP _ _ _ h hw

/-! ### What a step appends to the histories -/

/-- From `s` to `t` the histories have only grown; and if no reset waited in the link, none does now, and `LOG` has grown
by whole `Emit`s that account for what was added to `OUT` (R43, R45). -/
structure Grows (s t : State) : Prop where
  out : s.out <+: t.out
  log : s.log <+: t.log
  responses : s.responses <+: t.responses
  accounted : Link.noReset s.link = true → Link.noReset t.link = true ∧
    ∃ entries, t.log = s.log ++ entries ∧ t.out = s.out ++ acceptedBytes entries ∧ wholeEmits entries = true

section

variable {s t u : State}

/-- What leaves the transport alone adds responses at most. -/
theorem Grows.of_no_emit (hout : t.out = s.out) (hlog : t.log = s.log) (hlink : t.link = s.link)
    (hresp : s.responses <+: t.responses) : Grows s t :=
  ⟨hout ▸ List.prefix_rfl, hlog ▸ List.prefix_rfl, hresp,
    fun h => ⟨hlink ▸ h, [], by simp [hlog, hout, acceptedBytes, wholeEmits]⟩⟩

theorem Grows.refl (s : State) : Grows s s := .of_no_emit rfl rfl rfl List.prefix_rfl

theorem Grows.trans (hst : Grows s t) (htu : Grows t u) : Grows s u where
  out := hst.out.trans htu.out
  log := hst.log.trans htu.log
  responses := hst.responses.trans htu.responses
  accounted h := by
    obtain ⟨ht, a, hlog, hout, hwhole⟩ := hst.accounted h
    obtain ⟨hu, b, hlog', hout', hwhole'⟩ := htu.accounted ht
    exact ⟨hu, a ++ b, by rw [hlog', hlog, List.append_assoc],
      by rw [hout', hout, acceptedBytes_append, List.append_assoc], wholeEmits_append hwhole hwhole'⟩

theorem SameButSession.grows (h : SameButSession s t) : Grows s t := by
  rw [h]
  exact .of_no_emit rfl rfl rfl List.prefix_rfl

theorem grows_respond (r : Response) (s : State) : Grows s (respond r s) :=
  .of_no_emit rfl rfl rfl (List.prefix_append _ _)

theorem grows_raise (r : Response) (s : State) : Grows s (raise r s) :=
  .of_no_emit (raise_out r s) (raise_log r s) (raise_link r s) (raise_responses r s ▸ List.prefix_append _ _)

theorem grows_resetRbc (s : State) : Grows s (resetRbc s) := .of_no_emit rfl rfl rfl List.prefix_rfl

/-- An `Emit` that no reset cuts logs what it added to `OUT` as a whole `Emit`. -/
theorem Grows.of_entries {entries : List LogEntry} (hlog : t.log = s.log ++ entries)
    (hout : t.out = s.out ++ acceptedBytes entries) (hwhole : wholeEmits entries = true)
    (hresp : t.responses = s.responses) (hlink : Link.noReset s.link = true → Link.noReset t.link = true) : Grows s t :=
  ⟨⟨_, hout.symm⟩, ⟨_, hlog.symm⟩, hresp ▸ List.prefix_rfl, fun h => ⟨hlink h, entries, hlog, hout, hwhole⟩⟩

/-- However an `Emit` ends, the histories grow; where a reset cuts it, the link held one (R45, R251). -/
theorem emit_grows {bytes : List Byte} (h : (emit bytes s).state? = some t) : Grows s t := by
  have hlink := fun hs => (emit_link (fun l a l' hl ha => (Link.noReset_next hl ha).2) bytes (s := s) hs).1 t h
  have hcut := @noReset_of_emit_cut bytes s t
  have hc := emit_cases bytes s
  generalize emit bytes s = e at h hc hcut
  cases hc with
  | done | flushFailed =>
    cases h
    exact .of_entries rfl (by simp [acceptedBytes]) rfl rfl hlink
  | writeFailed k =>
    cases h
    exact .of_entries rfl (by simp [acceptedBytes]) (by simp [wholeEmits]) rfl hlink
  | writeCut =>
    cases h
    exact ⟨List.prefix_append _ _, List.prefix_rfl, List.prefix_rfl, by simp [hcut rfl]⟩
  | flushCut =>
    cases h
    exact ⟨List.prefix_append _ _, List.prefix_append _ _, List.prefix_rfl, by simp [hcut rfl]⟩
  | blocked => cases h

/-- A transaction that starts with an `Emit` has grown the histories when the rest of it runs, or when it ends. -/
theorem emitThen_grows {bytes : List Byte} {k : State → Result} (h : emitThen bytes s k = .next t) :
    (∃ u, Grows s u ∧ k u = .next t) ∨ Grows s t := by
  unfold emitThen at h
  have hg : ∀ u, (emit bytes s).state? = some u → Grows s u := fun _ => emit_grows
  generalize emit bytes s = e at h hg
  cases e with
  | done u => exact .inl ⟨u, hg u rfl, h⟩
  | failed u =>
    cases h
    exact .inr ((hg u rfl).trans (grows_raise _ u))
  | cut u =>
    cases h
    exact .inr ((hg u rfl).trans (grows_resetRbc u))
  | blocked => cases h

/-- Every meaning lets the histories only grow. -/
theorem Built.grows {o : Result} (h : Built s o) : ∀ t, o = .next t → Grows s t := by
  induction h with
  | stop => nofun
  | answer s t r h =>
    rintro _ ⟨⟩
    exact h.grows.trans (grows_respond r t)
  | done s =>
    rintro _ ⟨⟩
    exact .refl s
  | emit s t bytes k h _ ih =>
    intro v hv
    obtain ⟨u, hu, hk⟩ | hend := emitThen_grows hv
    · exact h.grows.trans (hu.trans (ih u v hk))
    · exact h.grows.trans hend

theorem exec_grows {i : Instr} (h : exec i s = .next t) : Grows s t := (exec_built i s).grows t h

theorem takeTransaction_grows {r : HostRecord} (h : takeTransaction r s = .next t) : Grows s t := by
  obtain ⟨i, -, hi⟩ | rfl := takeTransaction_next h
  · exact exec_grows hi
  · exact grows_raise _ s

/-- No delivery takes anything back; a reset before the response takes back a response that was never given (R251). -/
theorem takeDelivery_grows {d : Delivery} (h : takeDelivery d s = .next t) : Grows s t := by
  match d with
  | .deliver (.transaction r) => exact takeTransaction_grows h
  | .deliver (.command bytes) =>
    obtain ⟨i, -, hi⟩ := takeCommand_next h
    exact exec_grows hi
  | .cut r =>
    obtain ⟨u, hu, rfl⟩ := cutByReset_next h
    exact { takeTransaction_grows hu with responses := List.prefix_rfl }
  | .reset =>
    cases h
    exact grows_resetRbc s

theorem step_grows (h : step s = .next t) : Grows s t := by
  obtain ⟨-, rfl⟩ | ⟨d, rest, -, hd⟩ := step_next h
  · exact .refl t
  · have hinput : Grows s { s with input := rest } := .of_no_emit rfl rfl rfl List.prefix_rfl
    exact hinput.trans (takeDelivery_grows hd)

end

/-! ### Where the transport leaves the RBC stuck -/

/-- A transport that does not answer a write leaves the RBC with no next step (R44, R258). -/
theorem emitThen_of_write_silent (bytes : List Byte) {s : State} (k : State → Result) (h : Link.next s.link = none) :
    emitThen bytes s k = .fault .transportBlocked := by
  simp [emitThen, emit, h, afterEmit]

/-- So does one that does not answer the flush (R44, R258). -/
theorem emitThen_of_flush_silent (bytes : List Byte) {s : State} {l : Link} (k : State → Result)
    (h1 : Link.next s.link = some (.ok, l)) (h2 : Link.next l = none) :
    emitThen bytes s k = .fault .transportBlocked := by
  simp [emitThen, emit, flushLink, h1, h2, afterEmit]

/-- Once the transport has accepted the commands before `c`, the meaning is at the `Emit` of `c`: only the session's own
elements may differ from `s` with those commands in `OUT` and in `LOG`. -/
def EmitsInOrder (s : State) (g : Link → Result) (cmds : List (List Byte)) : Prop :=
  ∀ earlier c later l l₁, cmds = earlier ++ c :: later → AcceptsEach earlier.length l l₁ →
    ∃ t k, SameButSession { s with out := s.out ++ earlier.flatten, log := s.log ++ accepted earlier } t ∧
      g l = emitThen c { t with link := l₁ } k

/-- A meaning that does not stop by itself sends the same commands whatever the transport answers: the ones it sends to a
transport that accepts everything. -/
theorem Talks.emitsInOrder {s : State} {g : Link → Result} (h : Talks s g) :
    ∃ cmds u, g ⟨[], .ok⟩ = .next u ∧ u.log = s.log ++ accepted cmds ∧ EmitsInOrder s g cmds := by
  induction h with
  | answer s t r h => exact ⟨[], _, rfl, by rw [h]; simp [accepted], by simp [EmitsInOrder]⟩
  | done s => exact ⟨[], _, rfl, by simp [accepted], by simp [EmitsInOrder]⟩
  | emit s t bytes k h _ ih =>
    obtain ⟨cmds, u, hu, hlog, hcmds⟩ := ih
    have haccept : Link.Accepts ⟨[], .ok⟩ ⟨[], .ok⟩ := ⟨_, rfl, rfl⟩
    have hts : t.out = s.out ∧ t.log = s.log := by
      rw [h]
      exact ⟨rfl, rfl⟩
    refine ⟨bytes :: cmds, u, (emitThen_of_accepts bytes k haccept).trans hu, ?_, ?_⟩
    · rw [hlog, hts.2]
      simp [accepted]
    · rintro (_ | ⟨_, earlier⟩) c later l l₁ hsplit hl
      · cases hsplit
        cases hl
        refine ⟨t, k, ?_, rfl⟩
        rw [h]
        simp [SameButSession, accepted]
      · cases hsplit
        obtain ⟨l₂, hfirst, hrest⟩ := hl
        obtain ⟨t', k', hsame, hg⟩ := hcmds earlier c later l₂ l₁ rfl hrest
        refine ⟨t', k', ?_, (emitThen_of_accepts bytes k hfirst).trans hg⟩
        rw [hsame, h]
        simp [SameButSession, accepted]

end Machine

namespace Claims

open Sys2Proof.Machine

/-- Once the transport has accepted the commands before `c`, an instruction that sends `c` is at its `Emit`. -/
theorem Sends.reaches {i : Instr} {s : State} {earlier later : List (List Byte)} {c : List Byte} {l₁ : Link}
    (h : Sends i s (earlier ++ c :: later)) (hl : AcceptsEach earlier.length s.link l₁) :
    ∃ t k, SameButSession { s with out := s.out ++ earlier.flatten, log := s.log ++ accepted earlier } t ∧
      exec i s = emitThen c { t with link := l₁ } k := by
  obtain ⟨u, hu, hlog, -⟩ := h
  obtain ⟨f, hstop⟩ | htalks := exec_talks i s
  · cases (hstop _).symm.trans hu
  · obtain ⟨cmds, u', hu', hlog', hcmds⟩ := htalks.emitsInOrder
    cases hu.symm.trans hu'
    have heq : cmds = earlier ++ c :: later := accepted_injective (List.append_cancel_left (hlog'.symm.trans hlog))
    exact hcmds earlier c later s.link l₁ heq hl

end Claims

namespace Machine

/-! ### While the transport answers, nothing blocks -/

/-- An answer does not change how the transport goes on after its listed ones (log 3). -/
theorem Link.tail_next {l l' : Link} {a : Answer} (h : Link.next l = some (a, l')) : l'.tail = l.tail := by
  obtain ⟨answers, tail⟩ := l
  cases answers with
  | nil => cases tail <;> cases h <;> rfl
  | cons b rest =>
    cases h
    rfl

/-- A transport that does not fall silent answers (R44). -/
theorem Link.next_ne_none {l : Link} (h : l.tail ≠ .silent) : Link.next l ≠ none := by
  obtain ⟨answers, tail⟩ := l
  cases answers with
  | nil =>
    cases tail with
    | ok | fail => nofun
    | silent => exact absurd rfl h
  | cons => nofun

/-- An `Emit` on such a transport gets its answers; so the meaning blocks only if the rest of it does. -/
theorem emitThen_ne_blocked {bytes : List Byte} {s : State} {k : State → Result} (h : s.link.tail ≠ .silent)
    (hk : ∀ u : State, u.link.tail ≠ .silent → k u ≠ .fault .transportBlocked) :
    emitThen bytes s k ≠ .fault .transportBlocked := by
  obtain ⟨hlink, hblocked⟩ := emit_link (P := (·.tail ≠ .silent))
    (fun l a l' hl ha => (Link.tail_next ha).symm ▸ hl) bytes h
  unfold emitThen
  generalize emit bytes s = e at hlink hblocked
  cases e with
  | done u => exact hk u (hlink u rfl)
  | failed | cut => nofun
  | blocked =>
    obtain ⟨l, hl, hnone⟩ := hblocked rfl
    exact absurd hnone (Link.next_ne_none hl)

section

variable {s : State} (h : s.link.tail ≠ .silent)

include h

theorem standalone_ne_blocked (bytes : List Byte) : standalone bytes s ≠ .fault .transportBlocked := by
  unfold standalone
  split
  · nofun
  · exact emitThen_ne_blocked h fun _ _ => nofun

theorem deviceCommand_ne_blocked (bytes : List Byte) : deviceCommand bytes s ≠ .fault .transportBlocked :=
  emitThen_ne_blocked h fun _ _ => nofun

theorem bcupc_ne_blocked (c : List Byte) : execBcupc c s ≠ .fault .transportBlocked := by
  unfold execBcupc
  split
  · nofun
  · split
    · exact emitThen_ne_blocked h fun _ _ => nofun
    · nofun

theorem ibegin_ne_blocked (m : Byte) (w : U16) : execIbegin m w s ≠ .fault .transportBlocked := by
  unfold execIbegin
  split
  · nofun
  · split
    · nofun
    · split
      · nofun
      · exact emitThen_ne_blocked h fun _ _ => nofun

theorem bandComplete_ne_blocked (m : Byte) (w : U16) (v : Variant) {k : State → Result}
    (hk : ∀ u : State, u.link.tail ≠ .silent → k u ≠ .fault .transportBlocked) :
    bandComplete m w v s k ≠ .fault .transportBlocked := by
  unfold bandComplete
  split
  · nofun
  · exact emitThen_ne_blocked h fun _ hu => hk _ hu

theorem acceptRow_ne_blocked (m : Byte) (w : U16) (row : Row) : acceptRow m w row s ≠ .fault .transportBlocked := by
  unfold acceptRow
  split
  · nofun
  · split
    · dsimp only
      split
      · refine bandComplete_ne_blocked ?_ m w _ fun _ _ => nofun
        exact h
      · nofun
    · nofun

theorem rowTransaction_ne_blocked (row : Row) : rowTransaction row s ≠ .fault .transportBlocked := by
  unfold rowTransaction
  split
  · nofun
  · split
    · exact acceptRow_ne_blocked h _ _ row
    · nofun

theorem closeImage_ne_blocked : closeImage s ≠ .fault .transportBlocked :=
  emitThen_ne_blocked h fun _ _ => nofun

theorem iend_ne_blocked : execIend s ≠ .fault .transportBlocked := by
  unfold execIend
  split
  · nofun
  · split
    · exact closeImage_ne_blocked h
    · split
      · nofun
      · split
        · exact bandComplete_ne_blocked (s := padBand _ _ s) h _ _ _ fun _ => closeImage_ne_blocked
        · nofun

/-- No instruction blocks on a transport that does not fall silent (R44). -/
theorem exec_ne_blocked (i : Instr) : exec i s ≠ .fault .transportBlocked := by
  cases i with
  | bcupc c => exact bcupc_ne_blocked h c
  | ibegin m w => exact ibegin_ne_blocked h m w
  | irowg _ | irowm _ => exact rowTransaction_ne_blocked h _
  | iend => exact iend_ne_blocked h
  | prst | cut | pcut | lfr _ | pmode _ | dbl _ | ul _ | bch _ | bcw _ | bctp _ | bcf _ =>
    exact standalone_ne_blocked h _
  | dReset | dCut | dPcut | dLfr _ | dPmode _ | dDbl _ | dUl _ | dBcprint _ _ | dImgband _ _ _ | dBch _ | dBcw _
  | dBctp _ | dBcf _ =>
    exact deviceCommand_ne_blocked h _

end

end Machine

namespace Claims

open Sys2Proof.Machine

/-- Settles O40: the entries a step adds to `LOG` account for the bytes it adds to `OUT`. -/
theorem logAccountsForOutput : Obligations.LogAccountsForOutput := by
  intro s t hlink hout h
  obtain ⟨hlink', entries, hlog, hout', -⟩ := (step_grows h).accounted hlink
  exact ⟨hlink', by rw [hout', hout, hlog, acceptedBytes_append]⟩

/-- Settles O27: the instruction is at the `Emit` of the command, and that is where it waits for ever. -/
theorem silentTransportBlocks : Obligations.SilentTransportBlocks := by
  refine ⟨fun i s earlier later c l₁ hsends hl hwrite => ?_, fun i s earlier later c l₁ l₂ hsends hl hwrite hflush => ?_⟩
  all_goals obtain ⟨t, k, -, hexec⟩ := hsends.reaches hl
  · exact hexec.trans (emitThen_of_write_silent c k hwrite)
  · exact hexec.trans (emitThen_of_flush_silent c k hwrite hflush)

/-- Settles O38: from a state of R29 an instruction could only block, and on such a transport it does not. -/
theorem everyInstructionCompletes : Obligations.EveryInstructionCompletes := by
  intro s i hinv htail
  have hne := exec_ne_blocked htail i
  have hkeeps := exec_keepsInv hinv i
  generalize exec i s = o at hne hkeeps
  cases hkeeps with
  | next => exact ⟨_, rfl⟩
  | blocked => exact absurd rfl hne

/-- Settles O39, by what every delivery appends. -/
theorem historiesOnlyGrow : Obligations.HistoriesOnlyGrow := by
  intro s t h
  obtain ⟨hout, hlog, hresp, -⟩ := step_grows h
  exact ⟨hout, hlog, hresp⟩

/-- Settles O41: the entries a step adds to `LOG` are whole `Emit`s. -/
theorem everyCommandIsWrittenThenFlushed : Obligations.EveryCommandIsWrittenThenFlushed := by
  intro s t hlink hwhole h
  obtain ⟨hlink', entries, hlog, -, hwhole'⟩ := (step_grows h).accounted hlink
  exact ⟨hlink', hlog ▸ wholeEmits_append hwhole hwhole'⟩

/-- Settles O34, for the written row and for the others. -/
theorem bandReadsWhatWasWritten : Obligations.BandReadsWhatWasWritten := by
  intro s r r' x row
  split
  · next h =>
    subst h
    exact bandRead_bandWrite_same s r' x row
  · next h => exact bandRead_bandWrite_other s x row h

end Claims

end Sys2Proof

/-! Encodings at the device port (30_encoding.md): a device command is read back from the head of any byte stream, and an
output stream gives back its commands (R75, R76). -/

namespace Sys2Proof

open Sys2Proof.Claims

/-! ### A device command at the head of a stream -/

/-- The GS sub-commands are told apart by R6's constraint on their bytes. -/
theorem Config.subcommands_nodup {cfg : Config} (h : cfg.wf = true) :
    [0x6B#8, cfg.bcSubHeight, cfg.bcSubWidth, cfg.bcSubTextPos, cfg.bcSubFont].Nodup := by
  simp only [Config.wf, Bool.and_eq_true, decide_eq_true_eq] at h
  exact h.2

/-- Each setting sub-command of a legal configuration takes its own branch (R69, R75). -/
theorem decodeGs_setting {cfg : Config} (h : cfg.wf = true) (v : Byte) (rest : List Byte) :
    decodeGs cfg 0x1D#8 cfg.bcSubHeight (v :: rest) = .ok (.dBch v, rest) ∧
    decodeGs cfg 0x1D#8 cfg.bcSubWidth (v :: rest) = .ok (.dBcw v, rest) ∧
    decodeGs cfg 0x1D#8 cfg.bcSubTextPos (v :: rest) = .ok (.dBctp v, rest) ∧
    decodeGs cfg 0x1D#8 cfg.bcSubFont (v :: rest) = .ok (.dBcf v, rest) := by
  have hdistinct := Config.subcommands_nodup h
  simp only [List.nodup_cons, List.mem_cons, List.not_mem_nil, not_or, or_false] at hdistinct
  simp [decodeGs, decodeParam, hdistinct, eq_comm (b := 0x6B#8), eq_comm (b := cfg.bcSubHeight),
    eq_comm (b := cfg.bcSubWidth), eq_comm (b := cfg.bcSubTextPos)]

/-- The digits of a barcode print are read up to its terminator (R71, R76). -/
theorem decodeBarcode_digits {digits : List Byte} (h : digits.all isDigit = true) (mode : Byte) (rest : List Byte) :
    decodeBarcode 0x1D#8 0x6B#8 (mode :: (digits ++ 0x00#8 :: rest)) = .ok (.dBcprint mode digits, rest) := by
  have hsplit : splitAtNul (digits ++ 0x00#8 :: rest) = some (digits, rest) :=
    splitAtNul_append digits rest fun b hb => ne_nul_of_isDigit (List.all_eq_true.mp h b hb)
  simp [decodeBarcode, hsplit]

/-- The data of an Image band is read by the length in its header (R70, R76). -/
theorem decodeImage_data {cfg : Config} {m : Byte} {v : Variant} {w : U16} {data : List Byte}
    (hv : variantOf cfg m = some v) (hlen : data.length = density v * w.toNat) (rest : List Byte) :
    decodeImage cfg 0x1B#8 0x2A#8 (m :: lowByte w :: highByte w :: (data ++ rest))
      = .ok (.dImgband m w data, rest) := by
  simp [decodeImage, hv, ← hlen]

/-- A well-formed device command at the head of a byte stream is read as itself, and what follows is left (R75, R76). -/
theorem decodeCommand_encode {cfg : Config} {i : Instr} (h : cfg.wf = true) (hp : i.port = .device)
    (hw : i.wellFormed cfg = true) (rest : List Byte) :
    decodeCommand cfg (commandBytes (encode cfg i) ++ rest) = .ok (i, rest) := by
  cases i with
  | dReset | dCut | dPcut | dLfr _ | dPmode _ => rfl
  | dDbl on | dUl on => cases on <;> rfl
  | dBcprint mode digits =>
    simp only [Instr.wellFormed, Bool.and_eq_true] at hw
    simpa [encode, commandBytes, encBarcodePrint, decodeCommand, decodeGs] using decodeBarcode_digits hw.2 mode rest
  | dImgband m w data =>
    cases hv : variantOf cfg m with
    | none => simp [Instr.wellFormed, hv] at hw
    | some v =>
      simp only [Instr.wellFormed, hv, Bool.and_eq_true, decide_eq_true_eq] at hw
      exact decodeImage_data hv hw.2 rest
  | dBch v | dBcw v | dBctp v | dBcf v =>
    simp [encode, commandBytes, encBarcodeHeight, encBarcodeWidth, encBarcodeTextPos, encBarcodeFont, decodeCommand,
      decodeGs_setting h]
  | _ => cases hp

/-- The encoding of an instruction stands at the instruction's port (R60). -/
theorem port_encode (cfg : Config) (i : Instr) : (encode cfg i).port = i.port := by cases i <;> rfl

/-- The bytes of a well-formed device command decode to it (R60). -/
theorem decodeDevice_encode {cfg : Config} {i : Instr} (h : cfg.wf = true) (hp : i.port = .device)
    (hw : i.wellFormed cfg = true) : decodeDevice cfg (commandBytes (encode cfg i)) = .ok i := by
  have hread := decodeCommand_encode h hp hw []
  rw [List.append_nil] at hread
  simp [decodeDevice, hread]

/-- Nothing is read from an empty stream, so a device command is at least one byte long. -/
theorem commandBytes_ne_nil {cfg : Config} {i : Instr} (h : cfg.wf = true) (hp : i.port = .device)
    (hw : i.wellFormed cfg = true) : commandBytes (encode cfg i) ≠ [] := by
  intro hnil
  have hread := decodeCommand_encode h hp hw []
  rw [hnil] at hread
  cases hread

/-- A stream that starts with a command is that command and the stream after it (R76). -/
theorem decodeStreamFuel_of_command {cfg : Config} {bytes rest : List Byte} {i : Instr} {is : List Instr} {fuel : Nat}
    (hread : decodeCommand cfg bytes = .ok (i, rest)) (hrest : decodeStreamFuel cfg fuel rest = .ok is) :
    decodeStreamFuel cfg (fuel + 1) bytes = .ok (i :: is) := by
  cases bytes with
  | nil => cases hread
  | cons b bs => simp [decodeStreamFuel, hread, hrest]

/-- With fuel for every byte, a stream of well-formed commands is read to its end (R76). -/
theorem decodeStreamFuel_encode {cfg : Config} (h : cfg.wf = true) {cs : List Instr}
    (hcs : ∀ i ∈ cs, i.port = .device ∧ i.wellFormed cfg = true) {fuel : Nat}
    (hfuel : (cs.map fun i => commandBytes (encode cfg i)).flatten.length ≤ fuel) :
    decodeStreamFuel cfg fuel (cs.map fun i => commandBytes (encode cfg i)).flatten = .ok cs := by
  induction cs generalizing fuel with
  | nil => cases fuel <;> rfl
  | cons i cs ih =>
    obtain ⟨hp, hw⟩ := hcs i List.mem_cons_self
    have hpos := List.length_pos_iff.mpr (commandBytes_ne_nil h hp hw)
    simp only [List.map_cons, List.flatten_cons, List.length_append] at hfuel ⊢
    cases fuel with
    | zero => omega
    | succ fuel =>
      have hrest := ih (fun j hj => hcs j (List.mem_cons_of_mem _ hj)) (fuel := fuel) (by omega)
      exact decodeStreamFuel_of_command (decodeCommand_encode h hp hw _) hrest

namespace Claims

/-- Settles O13, at each of the two ports. -/
theorem decodeEncodeRoundTrip : Obligations.DecodeEncodeRoundTrip := by
  intro cfg i h hw
  refine ⟨?_, port_encode cfg i⟩
  have hport := port_encode cfg i
  cases henc : encode cfg i with
  | transaction r => exact decodeHost_of_encode hw henc
  | command bytes =>
    have hdec := fun hp => decodeDevice_encode h hp hw
    rw [henc] at hport hdec
    exact hdec hport.symm

/-- Settles O14, by induction on the commands. -/
theorem outputStreamParsesBack : Obligations.OutputStreamParsesBack :=
  fun _ _ h hcs => decodeStreamFuel_encode h hcs le_rfl

/-- Settles O16: the two bytes are the width's remainder and quotient by 256. -/
theorem lengthFieldIsTheWidth : Obligations.LengthFieldIsTheWidth := by
  intro m w data
  have hw := w.isLt
  have hlow : (lowByte w).toNat = w.toNat % 256 := by
    rw [lowByte, BitVec.toNat_ofNat]
    omega
  have hhigh : (highByte w).toNat = w.toNat / 256 := by
    rw [highByte, BitVec.toNat_ofNat]
    omega
  exact ⟨rfl, hlow, hhigh, by omega⟩

end Claims

end Sys2Proof

/-! Encodings at the host port (30_encoding.md): a record has one meaning (R61, R63, R65), and in the byte framing it has
one form (log 1). -/

namespace Sys2Proof

open Sys2Proof.Claims

/-! ### What a record means -/

/-- A host opcode is reserved, or one of R63's. -/
theorem hop_of_not_reserved {hop : Byte} (h : ¬ Reserved hop) :
    hop ∈ [0x01#8, 0x02#8, 0x03#8, 0x04#8, 0x05#8, 0x06#8, 0x07#8, 0x08#8, 0x09#8, 0x0A#8, 0x0B#8, 0x0C#8, 0x10#8,
      0x11#8, 0x12#8, 0x13#8] := by
  unfold Reserved at h
  simp only [List.mem_cons, List.not_mem_nil, ← BitVec.toNat_inj, BitVec.toNat_ofNat]
  omega

/-- A reserved host opcode is refused as such (R65). -/
theorem decodeHost_of_reserved {r : HostRecord} (h : Reserved r.hop) :
    decodeHost r = .error (.reservedOpcode r.hop) := by
  unfold Reserved at h
  unfold decodeHost
  split
  case h_17 => rfl
  all_goals omega

/-- `i` is the host transaction whose record is `r`, whatever the parameters. -/
def HasRecord (i : Instr) (r : HostRecord) : Prop :=
  i.port = .host ∧ ∀ cfg, i.wellFormed cfg = true ∧ encode cfg i = .transaction r

/-- The answer `d` for the operands `ops` of the host opcode `hop`, which R63 gives the operands `kinds`: the
instruction whose record it is, or a refusal of operands of other kinds. -/
structure OneMeaning (kinds : List OperandKind) (hop : Byte) (ops : List Operand) (d : Except DecodeError Instr) :
    Prop where
  fitting : operandsFit kinds ops = true → ∃ i, d = .ok i ∧ HasRecord i ⟨hop, ops⟩
  other : operandsFit kinds ops = false → d = .error (.wrongOperands hop)

@[simp] theorem operandsFit_nil_iff {ops : List Operand} : operandsFit [] ops = true ↔ ops = [] := by
  cases ops <;> simp [operandsFit]

@[simp] theorem operandsFit_cons_iff {k : OperandKind} {ks : List OperandKind} {ops : List Operand} :
    operandsFit (k :: ks) ops = true ↔ ∃ o os, ops = o :: os ∧ o.fits k = true ∧ operandsFit ks os = true := by
  cases ops <;> simp [operandsFit]

@[simp] theorem fits_u8_iff {o : Operand} : o.fits .u8 = true ↔ ∃ b, o = .u8 b := by
  cases o <;> simp [Operand.fits]

@[simp] theorem fits_u16_iff {o : Operand} : o.fits .u16 = true ↔ ∃ w, o = .u16 w := by
  cases o <;> simp [Operand.fits]

@[simp] theorem fits_bytes_iff {most : Nat} {o : Operand} :
    o.fits (.bytes most) = true ↔ ∃ s, o = .bytes s ∧ s.length ≤ most := by
  cases o <;> simp [Operand.fits]

@[simp] theorem fits_cells_iff {most : Nat} {o : Operand} :
    o.fits (.cells most) = true ↔ ∃ p, o = .cells p ∧ p.length ≤ most := by
  cases o <;> simp [Operand.fits]

section

variable {hop : Byte} (ops : List Operand)

theorem oneMeaning_decodeNone {i : Instr} (h : HasRecord i ⟨hop, []⟩) :
    OneMeaning [] hop ops (decodeNone i hop ops) := by
  cases ops with
  | nil => exact ⟨fun _ => ⟨i, rfl, h⟩, nofun⟩
  | cons => exact ⟨nofun, fun _ => rfl⟩

theorem oneMeaning_decodeU8 {f : Byte → Instr} (h : ∀ b, HasRecord (f b) ⟨hop, [.u8 b]⟩) :
    OneMeaning [.u8] hop ops (decodeU8 f hop ops) where
  fitting hfit := by
    obtain ⟨b, rfl⟩ : ∃ b, ops = [.u8 b] := by simpa using hfit
    exact ⟨f b, rfl, h b⟩
  other hfit := by
    unfold decodeU8
    split
    · cases hfit
    · rfl

theorem oneMeaning_decodeModeWidth (h : ∀ m w, HasRecord (.ibegin m w) ⟨hop, [.u8 m, .u16 w]⟩) :
    OneMeaning [.u8, .u16] hop ops (decodeModeWidth hop ops) where
  fitting hfit := by
    obtain ⟨m, w, rfl⟩ : ∃ m w, ops = [.u8 m, .u16 w] := by simpa using hfit
    exact ⟨.ibegin m w, rfl, h m w⟩
  other hfit := by
    unfold decodeModeWidth
    split
    · cases hfit
    · rfl

theorem oneMeaning_decodeBytes {most : Nat} {f : List Byte → Instr}
    (h : ∀ s, s.length ≤ most → HasRecord (f s) ⟨hop, [.bytes s]⟩) :
    OneMeaning [.bytes most] hop ops (decodeBytes most f hop ops) where
  fitting hfit := by
    obtain ⟨s, rfl, hs⟩ : ∃ s, ops = [.bytes s] ∧ s.length ≤ most := by simpa using hfit
    exact ⟨f s, if_pos hs, h s hs⟩
  other hfit := by
    unfold decodeBytes
    split
    · exact if_neg (by simpa [operandsFit, Operand.fits] using hfit)
    · rfl

theorem oneMeaning_decodeCells {most : Nat} {f : Row → Instr}
    (h : ∀ p, p.length ≤ most → HasRecord (f p) ⟨hop, [.cells p]⟩) :
    OneMeaning [.cells most] hop ops (decodeCells most f hop ops) where
  fitting hfit := by
    obtain ⟨p, rfl, hp⟩ : ∃ p, ops = [.cells p] ∧ p.length ≤ most := by simpa using hfit
    exact ⟨f p, if_pos hp, h p hp⟩
  other hfit := by
    unfold decodeCells
    split
    · exact if_neg (by simpa [operandsFit, Operand.fits] using hfit)
    · rfl

end

/-- A record whose host opcode is one of R63's has one meaning, by the form of its operands. -/
theorem oneMeaning_decodeHost {r : HostRecord} (h : ¬ Reserved r.hop) :
    OneMeaning (operandKinds r.hop) r.hop r.operands (decodeHost r) := by
  have hmem := hop_of_not_reserved h
  obtain ⟨hop, ops⟩ := r
  simp only [List.mem_cons, List.not_mem_nil, or_false] at hmem
  rcases hmem with rfl | rfl | rfl | rfl | rfl | rfl | rfl | rfl | rfl | rfl | rfl | rfl | rfl | rfl | rfl | rfl
  iterate 3 exact oneMeaning_decodeNone ops ⟨rfl, fun _ => ⟨rfl, rfl⟩⟩
  iterate 8 exact oneMeaning_decodeU8 ops fun _ => ⟨rfl, fun _ => ⟨rfl, rfl⟩⟩
  · exact oneMeaning_decodeBytes ops fun _ hs => ⟨rfl, fun _ => ⟨decide_eq_true hs, rfl⟩⟩
  · exact oneMeaning_decodeModeWidth ops fun _ _ => ⟨rfl, fun _ => ⟨rfl, rfl⟩⟩
  · exact oneMeaning_decodeBytes ops fun _ hs => ⟨rfl, fun _ => ⟨decide_eq_true hs, rfl⟩⟩
  · exact oneMeaning_decodeCells ops fun _ hp => ⟨rfl, fun _ => ⟨decide_eq_true hp, rfl⟩⟩
  · exact oneMeaning_decodeNone ops ⟨rfl, fun _ => ⟨rfl, rfl⟩⟩

/-- What a record decodes to is the host transaction whose record it is (R61). -/
theorem hasRecord_of_decodeHost {r : HostRecord} {i : Instr} (h : decodeHost r = .ok i) : HasRecord i r := by
  by_cases hr : Reserved r.hop
  · cases (decodeHost_of_reserved hr).symm.trans h
  · have hone := oneMeaning_decodeHost hr
    cases hwhole : operandsFit (operandKinds r.hop) r.operands with
    | false => cases (hone.other hwhole).symm.trans h
    | true =>
      obtain ⟨j, hj, hrec⟩ := hone.fitting hwhole
      cases hj.symm.trans h
      exact hrec

/-! ### The byte framing -/

/-- The kinds of operands that R63 lists. -/
theorem operandKinds_subset (hop : Byte) :
    operandKinds hop ⊆ [.u8, .u16, .bytes 255, .bytes 65535, .cells 65535] := by
  unfold operandKinds
  split <;> simp

/-- The sequence bounds of R63 fit the two length bytes. -/
theorem operandKinds_bound {hop : Byte} {kind : OperandKind} (h : kind ∈ operandKinds hop) (n : Nat)
    (hn : kind = .bytes n ∨ kind = .cells n) : n ≤ 65535 := by
  have hmem := operandKinds_subset hop h
  obtain rfl | rfl := hn
  · have hn : n = 255 ∨ n = 65535 := by simpa using hmem
    omega
  · have hn : n = 65535 := by simpa using hmem
    exact hn.le

/-- The bytes of operands are read back as them (log 1). -/
theorem takeOperands_bytesOfOperand {kinds : List OperandKind} {ops : List Operand}
    (hbound : ∀ kind ∈ kinds, ∀ n, kind = .bytes n ∨ kind = .cells n → n ≤ 65535)
    (h : operandsFit kinds ops = true) : takeOperands kinds (ops.map bytesOfOperand).flatten = some ops := by
  induction kinds generalizing ops with
  | nil =>
    obtain rfl := operandsFit_nil_iff.mp h
    rfl
  | cons kind kinds ih =>
    obtain ⟨o, os, rfl, ho, hos⟩ := operandsFit_cons_iff.mp h
    have hhead := takeOperand_bytesOfOperand ho (hbound kind List.mem_cons_self) (os.map bytesOfOperand).flatten
    have htail := ih (fun k hk => hbound k (List.mem_cons_of_mem _ hk)) hos
    simp [takeOperands, hhead, htail]

/-- A byte that holds a cell is that cell's byte (log 1). -/
theorem byteOfCell_of_cellOfByte {b : Byte} {c : Cell} (h : cellOfByte b = some c) : byteOfCell c = b := by
  unfold cellOfByte at h
  split_ifs at h with h0 h1 <;> cases h
  · exact h0.symm
  · exact h1.symm

/-- Bytes that hold cells are those cells' bytes (log 1). -/
theorem map_byteOfCell_of_cellsOfBytes {bs : List Byte} {p : Row} (h : cellsOfBytes bs = some p) :
    p.map byteOfCell = bs := by
  induction bs generalizing p with
  | nil =>
    cases h
    rfl
  | cons b bs ih =>
    unfold cellsOfBytes at h
    split at h
    · next c cs hc hcs =>
      cases h
      rw [List.map_cons, byteOfCell_of_cellOfByte hc, ih hcs]
    · cases h

/-- The length bytes of as many elements as two bytes say are those two bytes (log 1). -/
theorem lengthBytes_word16 {lo hi : Byte} {k : Nat} (h : k = (word16 lo hi).toNat) : lengthBytes k = [lo, hi] := by
  subst h
  simp [lengthBytes]

/-- What an operand is read from is its bytes and what is left (log 1). -/
theorem bytesOfOperand_of_takeOperand {kind : OperandKind} {bytes rest : List Byte} {o : Operand}
    (h : takeOperand kind bytes = some (o, rest)) : bytesOfOperand o ++ rest = bytes := by
  unfold takeOperand at h
  split at h
  · cases h
    rfl
  · cases h
    simp [bytesOfOperand]
  · next lo hi tail =>
    dsimp only at h
    split at h
    · next hk =>
      cases h
      simp only [bytesOfOperand, lengthBytes_word16 (List.length_take_of_le hk), List.cons_append, List.nil_append,
        List.take_append_drop]
    · cases h
  · next lo hi tail =>
    dsimp only at h
    split at h
    · next hk =>
      split at h
      · cases h
      · next p hp =>
        cases h
        have hbytes := map_byteOfCell_of_cellsOfBytes hp
        have hlen : p.length = (word16 lo hi).toNat := by
          rw [← List.length_map (f := byteOfCell), hbytes, List.length_take_of_le hk]
        simp [bytesOfOperand, hbytes, lengthBytes_word16 hlen]
    · cases h
  · cases h

/-- What operands are read from is their bytes (log 1). -/
theorem bytesOfOperand_of_takeOperands {kinds : List OperandKind} {bytes : List Byte} {ops : List Operand}
    (h : takeOperands kinds bytes = some ops) : (ops.map bytesOfOperand).flatten = bytes := by
  induction kinds generalizing bytes ops with
  | nil =>
    cases bytes <;> cases h
    rfl
  | cons kind kinds ih =>
    unfold takeOperands at h
    split at h
    · cases h
    · next o rest hhead =>
      split at h
      · cases h
      · next os htail =>
        cases h
        rw [List.map_cons, List.flatten_cons, ih htail, bytesOfOperand_of_takeOperand hhead]

/-- What is read as a record is a whole one, in its own bytes (log 1). -/
theorem carry_of_recordOfBytes {bytes : List Byte} {r : HostRecord} (h : recordOfBytes bytes = some r) :
    r.whole = true ∧ byteFraming.carry r = bytes := by
  unfold recordOfBytes at h
  split at h
  · cases h
  · next hop rest =>
    split at h
    · cases h
    · next ops hops =>
      split at h
      · next hfit =>
        cases h
        exact ⟨hfit, congrArg (hop :: ·) (bytesOfOperand_of_takeOperands hops)⟩
      · cases h

/-- A whole record is read back from its bytes (log 1). -/
theorem recordOfBytes_carry {r : HostRecord} (h : r.whole = true) :
    recordOfBytes (byteFraming.carry r) = some r := by
  have hread := takeOperands_bytesOfOperand (fun _ => operandKinds_bound) h
  simp only [byteFraming, recordOfBytes, hread]
  exact if_pos h

namespace Claims

open Sys2Proof.Machine

/-- Settles O47, by the form of operands that R63 gives the host opcode. -/
theorem everyRecordHasOneMeaning : Obligations.EveryRecordHasOneMeaning := by
  refine fun r => ⟨decodeHost_of_reserved, fun hr hwhole => ?_, fun hr => (oneMeaning_decodeHost hr).other⟩
  exact (oneMeaning_decodeHost hr).fitting hwhole

/-- Settles O49: what is carried is read back, and what is read was carried. -/
theorem byteFramingIsFaithful : Obligations.ByteFramingIsFaithful :=
  ⟨fun _ => recordOfBytes_carry, fun _ _ => carry_of_recordOfBytes⟩

/-- Settles O18: the record is refused as reserved, and the error changes nothing but the response. -/
theorem reservedOpcodeAnswersUnsupported : Obligations.ReservedOpcodeAnswersUnsupported := by
  intro s hop ops rest hin hr
  have hdec : decode s.cfg (.transaction ⟨hop, ops⟩) = .error (.reservedOpcode hop) :=
    decodeHost_of_reserved (r := ⟨hop, ops⟩) hr
  rw [step_of_input hin]
  simp only [takeDelivery, takeTransaction, hdec]
  rfl

end Claims

end Sys2Proof

/-! What a host transaction hands to the transport and how it answers (30_encoding.md section 4, R62): every command is a
well-formed device command, and there is one response unless a reset cuts it. -/

namespace Sys2Proof

namespace Machine

open Sys2Proof.Claims

/-! ### The commands of the grammar -/

/-- `c` is a well-formed device command no longer than the longest Image band or barcode print (R260, log 17). -/
def Lawful (cfg : Config) (c : List Byte) : Prop := InGrammar cfg (max 16 (5 + 3 * cfg.wmax.toNat)) c

/-- A well-formed device command of at most 16 bytes is one. -/
theorem lawful_of_encode {cfg : Config} {i : Instr} {c : List Byte} (henc : encode cfg i = .command c)
    (hlen : c.length ≤ 16) (hw : i.wellFormed cfg = true) : Lawful cfg c := by
  refine ⟨hlen.trans (le_max_left _ _), i, ?_, hw, henc⟩
  rw [← port_encode cfg i, henc]
  rfl

theorem lawful_encReset (cfg : Config) : Lawful cfg encReset :=
  lawful_of_encode (i := .dReset) rfl (by decide) rfl

/-- A Boolean operand is sent as the byte of the Boolean it stands for (R72). -/
theorem boolByte_byteOfBool_ne_zero (b : Byte) : boolByte (byteOfBool (decide (b ≠ 0x00#8))) = boolByte b := by
  by_cases hb : b = 0x00#8 <;> simp [byteOfBool, boolByte, hb]

theorem lawful_encDoublePrint (cfg : Config) (b : Byte) : Lawful cfg (encDoublePrint b) :=
  lawful_of_encode (i := .dDbl (decide (b ≠ 0x00#8)))
    (by simp only [encode, encDoublePrint, boolByte_byteOfBool_ne_zero]) (by decide : 3 ≤ 16) rfl

theorem lawful_encUnderline (cfg : Config) (b : Byte) : Lawful cfg (encUnderline b) :=
  lawful_of_encode (i := .dUl (decide (b ≠ 0x00#8)))
    (by simp only [encode, encUnderline, boolByte_byteOfBool_ne_zero]) (by decide : 3 ≤ 16) rfl

/-- The barcode print of an accepted count of digits (R172, R186). -/
theorem lawful_encBarcodePrint {cfg : Config} {c : List Byte} (h : upcLengthOk (digitsOf c).length = true) :
    Lawful cfg (encBarcodePrint cfg.bcModeUpca (digitsOf c)) := by
  refine lawful_of_encode (i := .dBcprint cfg.bcModeUpca (digitsOf c)) rfl ?_ ?_
  · simp only [upcLengthOk, Bool.and_eq_true, decide_eq_true_eq] at h
    simp only [encBarcodePrint, List.length_append, List.length_cons, List.length_nil]
    omega
  · have hdigits : (digitsOf c).all isDigit = true := by simp [digitsOf]
    simp [Instr.wellFormed, h, hdigits]

/-- The Image band of a session of R29 (R173). -/
theorem lawful_imageBand {s : State} {m : Byte} {w : U16} {v : Variant} {data : List Byte} (h : s.inv = true)
    (hs : s.session = .image m w) (hv : variantOf s.cfg m = some v) (hlen : data.length = density v * w.toNat) :
    Lawful s.cfg (imageBand m w data) := by
  obtain ⟨_, -, hpos, hmax, -⟩ := inv_image h hs
  have hdensity : density v ≤ 3 := by cases v <;> decide
  have hdata : data.length ≤ 3 * s.cfg.wmax.toNat := hlen ▸ Nat.mul_le_mul hdensity hmax
  refine ⟨?_, .dImgband m w data, rfl, ?_, rfl⟩
  · simp only [imageBand, List.length_append, List.length_cons, List.length_nil]
    omega
  · simp [Instr.wellFormed, hv, hpos, hlen]

theorem length_of_collect {α : Type} {l : List (Option α)} {as : List α} (h : collect l = some as) :
    as.length = l.length := by
  rw [collect_eq_some.mp h, List.length_map]

/-- What is collected is what the list holds. -/
theorem mem_of_collect {α : Type} {l : List (Option α)} {as : List α} {a : α} (h : collect l = some as)
    (ha : a ∈ as) : some a ∈ l := by
  rw [collect_eq_some.mp h]
  exact List.mem_map_of_mem ha

/-- A packed band has `density` bytes for each column (R131, R132). -/
theorem length_of_packBand {s : State} {v : Variant} {w : U16} {data : List Byte} (h : packBand s v w = some data) :
    data.length = density v * w.toNat := by
  obtain ⟨columns, hcolumns, rfl⟩ := Option.map_eq_some_iff.mp h
  have hcolumn : ∀ column ∈ columns, column.length = density v := by
    intro column hmem
    obtain ⟨x, -, hx⟩ := List.mem_map.mp (mem_of_collect hcolumns hmem)
    simpa using length_of_collect hx
  have hcount : columns.length = w.toNat := by simpa using length_of_collect hcolumns
  rw [List.length_flatten, List.sum_eq_card_nsmul _ (density v) (by simpa using hcolumn), List.length_map, hcount,
    smul_eq_mul, Nat.mul_comm]

/-! ### What a host transaction is built of -/

/-- What the meaning of a host transaction started in `s` is built of, as `Built`, with two more facts: it always ends
in an answer, and the commands it emits are of `G`. -/
inductive HostBuilt (G : List Byte → Prop) : State → Result → Prop
  | stop (s : State) (f : Fault) : HostBuilt G s (.fault f)
  | answer (s t : State) (r : Response) (h : SameButSession s t) : HostBuilt G s (.next (respond r t))
  | emit (s t : State) (bytes : List Byte) (k : State → Result) (h : SameButSession s t) (hG : G bytes)
      (hk : ∀ u, HostBuilt G u (k u)) : HostBuilt G s (emitThen bytes t k)

section

variable {G : List Byte → Prop} {s t : State}

theorem hostBuilt_standalone {bytes : List Byte} (hG : G bytes) (s : State) : HostBuilt G s (standalone bytes s) := by
  unfold standalone
  split
  · exact .answer s s .sequenceError rfl
  · exact .emit s s _ _ rfl hG fun u => .answer u u .ok rfl

theorem hostBuilt_bcupc {c : List Byte}
    (hG : upcLengthOk (digitsOf c).length = true → G (encBarcodePrint s.cfg.bcModeUpca (digitsOf c))) :
    HostBuilt G s (execBcupc c s) := by
  unfold execBcupc
  split
  · exact .answer s s .sequenceError rfl
  · split
    · next hlen => exact .emit s s _ _ rfl (hG hlen) fun u => .answer u u .ok rfl
    · exact .answer s s .invalidBarcodeLength rfl

theorem hostBuilt_ibegin (hG : G (encLineFeedRate 0x01#8)) (m : Byte) (w : U16) :
    HostBuilt G s (execIbegin m w s) := by
  unfold execIbegin
  split
  · exact .answer s s .sequenceError rfl
  · split
    · exact .answer s s .invalidDimension rfl
    · split
      · exact .answer s s .unsupportedMode rfl
      · exact .emit s s _ _ rfl hG fun u => .answer u _ .ok rfl

/-- The Image bands that the session of `s` can send are of `G`. -/
def BandsOf (G : List Byte → Prop) (s : State) : Prop :=
  ∀ m w v data, s.session = .image m w → variantOf s.cfg m = some v → data.length = density v * w.toNat →
    G (imageBand m w data)

theorem hostBuilt_bandComplete {m : Byte} {w : U16} {v : Variant} {k : State → Result} (h : SameButSession s t)
    (hG : ∀ data : List Byte, data.length = density v * w.toNat → G (imageBand m w data))
    (hk : ∀ u u', SameButSession u u' → HostBuilt G u (k u')) : HostBuilt G s (bandComplete m w v t k) := by
  unfold bandComplete
  split
  · exact .stop _ _
  · next data hdata => exact .emit s t _ _ h (hG data (length_of_packBand hdata)) fun u => hk _ _ rfl

theorem hostBuilt_rowTransaction (hG : BandsOf G s) (row : Row) : HostBuilt G s (rowTransaction row s) := by
  unfold rowTransaction
  split
  · exact .answer s s .sequenceError rfl
  · next m w hs =>
    split
    · unfold acceptRow
      split
      · exact .stop _ _
      · next v hv =>
        split
        · dsimp only
          split
          · refine hostBuilt_bandComplete ?_ (fun data => hG m w v data hs hv) fun u u' h => .answer u u' .ok h
            exact (rfl : SameButSession s { bandWrite s s.rowcnt.toNat row with rowcnt := s.rowcnt + 1#5 })
          · exact .answer s _ .ok rfl
        · exact .stop _ _
    · exact .answer s s .invalidDimension rfl

theorem hostBuilt_closeImage (hG : G encReset) (h : SameButSession s t) : HostBuilt G s (closeImage t) :=
  .emit s t _ _ h hG fun u => .answer u _ .ok rfl

theorem hostBuilt_iend (hreset : G encReset) (hG : BandsOf G s) : HostBuilt G s (execIend s) := by
  unfold execIend
  split
  · exact .answer s s .sequenceError rfl
  · next m w hs =>
    split
    · exact hostBuilt_closeImage hreset rfl
    · split
      · exact .stop _ _
      · next v hv =>
        split
        · refine hostBuilt_bandComplete ?_ (fun data => hG m w v data hs hv) fun u u' => hostBuilt_closeImage hreset
          exact (rfl : SameButSession s (padBand w v s))
        · exact .stop _ _

/-- Every host transaction is built so; from a state of R29 the commands it emits are of the grammar. -/
theorem exec_hostBuilt {i : Instr} (h : i.port = .host) (s : State) :
    HostBuilt (fun c => s.inv = true → Lawful s.cfg c) s (exec i s) := by
  have hbands : BandsOf (fun c => s.inv = true → Lawful s.cfg c) s :=
    fun m w v data hs hv hlen hinv => lawful_imageBand hinv hs hv hlen
  cases i with
  | prst => exact hostBuilt_standalone (fun _ => lawful_encReset s.cfg) s
  | cut => exact hostBuilt_standalone (fun _ => lawful_of_encode (i := .dCut) rfl (by decide) rfl) s
  | pcut => exact hostBuilt_standalone (fun _ => lawful_of_encode (i := .dPcut) rfl (by decide) rfl) s
  | lfr n => exact hostBuilt_standalone (fun _ => lawful_of_encode (i := .dLfr n) rfl (by decide : 3 ≤ 16) rfl) s
  | pmode f => exact hostBuilt_standalone (fun _ => lawful_of_encode (i := .dPmode f) rfl (by decide : 3 ≤ 16) rfl) s
  | dbl b => exact hostBuilt_standalone (fun _ => lawful_encDoublePrint s.cfg b) s
  | ul b => exact hostBuilt_standalone (fun _ => lawful_encUnderline s.cfg b) s
  | bch v => exact hostBuilt_standalone (fun _ => lawful_of_encode (i := .dBch v) rfl (by decide : 3 ≤ 16) rfl) s
  | bcw v => exact hostBuilt_standalone (fun _ => lawful_of_encode (i := .dBcw v) rfl (by decide : 3 ≤ 16) rfl) s
  | bctp v => exact hostBuilt_standalone (fun _ => lawful_of_encode (i := .dBctp v) rfl (by decide : 3 ≤ 16) rfl) s
  | bcf v => exact hostBuilt_standalone (fun _ => lawful_of_encode (i := .dBcf v) rfl (by decide : 3 ≤ 16) rfl) s
  | bcupc c => exact hostBuilt_bcupc fun hlen _ => lawful_encBarcodePrint hlen
  | ibegin m w =>
    exact hostBuilt_ibegin (fun _ => lawful_of_encode (i := .dLfr 0x01#8) rfl (by decide : 3 ≤ 16) rfl) m w
  | irowg _ | irowm _ => exact hostBuilt_rowTransaction hbands _
  | iend => exact hostBuilt_iend (fun _ => lawful_encReset s.cfg) hbands
  | _ => cases h

/-! ### The response -/

/-- From `s` to `t` one response was given, which `RESP` holds; or a reset cut the transaction (R62, R251). -/
def OneResponse (s t : State) : Prop :=
  (∃ r, t.resp = some r ∧ t.responses = s.responses ++ [r]) ∨ CutShort s t

/-- What gave no response, and added no reset to the link, can go before. -/
theorem OneResponse.of_later {u : State} (h : OneResponse u t) (hresp : u.responses = s.responses)
    (hlink : Link.noReset s.link = true → Link.noReset u.link = true) : OneResponse s t := by
  obtain ⟨r, hr, hrs⟩ | ⟨hreset, hat, hrs⟩ := h
  · exact .inl ⟨r, hr, hresp ▸ hrs⟩
  · refine .inr ⟨?_, hat, hrs.trans hresp⟩
    by_contra hn
    rw [hlink (by simpa using hn)] at hreset
    cases hreset

/-- After an `Emit` the rest of the meaning runs, with no response given yet; or there is one response, or a cut. -/
theorem emitThen_oneResponse {bytes : List Byte} {k : State → Result} (h : emitThen bytes s k = .next t) :
    (∃ u, k u = .next t ∧ u.responses = s.responses ∧ (Link.noReset s.link = true → Link.noReset u.link = true)) ∨
    OneResponse s t := by
  unfold emitThen at h
  have hlink := fun hs => (emit_link (fun l a l' hl ha => (Link.noReset_next hl ha).2) bytes (s := s) hs).1
  have hcut := @noReset_of_emit_cut bytes s
  have hc := emit_cases bytes s
  generalize emit bytes s = e at h hc hlink hcut
  cases hc with
  | done l => exact .inl ⟨_, h, rfl, fun hs => hlink hs _ rfl⟩
  | writeFailed | flushFailed =>
    cases h
    exact .inr (.inl ⟨_, raise_resp _ _, raise_responses _ _⟩)
  | writeCut | flushCut =>
    cases h
    exact .inr (.inr ⟨hcut rfl, rfl, rfl⟩)
  | blocked => cases h

theorem HostBuilt.oneResponse {o : Result} (h : HostBuilt G s o) : ∀ t, o = .next t → OneResponse s t := by
  induction h with
  | stop => nofun
  | answer s t r h =>
    rintro _ ⟨⟩
    refine .inl ⟨r, rfl, ?_⟩
    rw [h]
    rfl
  | emit s t bytes k h _ _ ih =>
    intro v hv
    have hresp : t.responses = s.responses := by rw [h]
    have hlink : t.link = s.link := by rw [h]
    have hone : OneResponse t v := by
      obtain ⟨u, hu, hsame, hkeeps⟩ | hend := emitThen_oneResponse hv
      · exact (ih u v hu).of_later hsame hkeeps
      · exact hend
    exact hone.of_later hresp fun hs => hlink ▸ hs

/-! ### What is handed to the transport -/

/-- `LOG` says that `c` was handed to the transport (R43). -/
def Written (c : List Byte) (log : List LogEntry) : Prop := .write c ∈ log ∨ ∃ k, .writeFail c k ∈ log

/-- From `s` to `t` only commands of `G` were handed to the transport: `LOG` names no others, and `OUT` has grown by whole
ones and then at most an initial part of one more. -/
structure SentOnly (G : List Byte → Prop) (s t : State) : Prop where
  log : ∀ c, Written c t.log → Written c s.log ∨ G c
  out : ∃ (whole : List (List Byte)) (last : List Byte) (k : Nat),
    (∀ c ∈ whole ++ [last], G c) ∧ t.out = s.out ++ whole.flatten ++ last.take k

/-- Where nothing is sent, the histories say nothing new. -/
theorem SentOnly.of_silent {c : List Byte} (hG : G c) (hlog : t.log = s.log) (hout : t.out = s.out) :
    SentOnly G s t :=
  ⟨fun _ hc => .inl (hlog ▸ hc), [], c, 0, by simpa using hG, by simp [hout]⟩

/-- One command that was cut short, or sent whole, is the initial part of it. -/
theorem SentOnly.of_emit {bytes : List Byte} {k : Nat} (hG : G bytes)
    (hlog : ∀ c, Written c t.log → Written c s.log ∨ c = bytes) (hout : t.out = s.out ++ bytes.take k) :
    SentOnly G s t :=
  ⟨fun c hc => (hlog c hc).imp_right fun (e : c = bytes) => e ▸ hG, [], bytes, k, by simpa using hG, by simp [hout]⟩

/-- A command that was sent whole comes before what is sent later. -/
theorem SentOnly.after_emit {bytes : List Byte} {u : State} (h : SentOnly G u t) (hG : G bytes)
    (hlog : ∀ c, Written c u.log → Written c s.log ∨ c = bytes) (hout : u.out = s.out ++ bytes) :
    SentOnly G s t := by
  obtain ⟨hlater, whole, last, k, hwhole, ht⟩ := h
  refine ⟨fun c hc => ?_, bytes :: whole, last, k, ?_, ?_⟩
  · obtain hu | hc := hlater c hc
    · exact (hlog c hu).imp_right fun (e : c = bytes) => e ▸ hG
    · exact .inr hc
  · simpa [hG] using hwhole
  · rw [ht, hout]
    simp

/-- A transaction that starts with an `Emit` of a command of `G` has sent only such commands, if the rest of it does. -/
theorem emitThen_sentOnly {bytes : List Byte} {k : State → Result} (hG : G bytes)
    (hk : ∀ u, k u = .next t → SentOnly G u t) (h : emitThen bytes s k = .next t) : SentOnly G s t := by
  obtain ⟨l, hu⟩ | ⟨n, l, rfl⟩ | ⟨l, rfl⟩ | ⟨n, l, rfl⟩ | ⟨l, rfl⟩ := emitThen_next h
  · exact (hk _ hu).after_emit hG (fun c => by simp [Written, or_right_comm]) rfl
  · exact .of_emit (k := n) hG (fun c hc => by simpa [Written, or_assoc, exists_or] using hc) (raise_out _ _)
  · exact .of_emit (k := bytes.length) hG (fun c => by simp [Written, or_right_comm]) (by simp)
  · exact .of_emit (k := n) hG (fun c => .inl) rfl
  · exact .of_emit (k := bytes.length) hG (fun c => by simp [Written, or_right_comm]) (by simp)

theorem HostBuilt.sentOnly {o : Result} (h : HostBuilt G s o) (hreset : G encReset) :
    ∀ t, o = .next t → SentOnly G s t := by
  induction h with
  | stop => nofun
  | answer s t r h =>
    rintro _ ⟨⟩
    refine .of_silent hreset ?_ ?_ <;> rw [h] <;> rfl
  | emit s t bytes k h hG _ ih =>
    intro v hv
    obtain ⟨hlog, hout⟩ := emitThen_sentOnly hG (fun u => ih u v) hv
    have htlog : t.log = s.log := by rw [h]
    have htout : t.out = s.out := by rw [h]
    exact ⟨htlog ▸ hlog, htout ▸ hout⟩

end

section

variable {s t : State}

/-- A delivered record lets only commands of the grammar reach the transport (R77). -/
theorem takeTransaction_sentOnly {r : HostRecord} (hinv : s.inv = true) (h : takeTransaction r s = .next t) :
    SentOnly (Lawful s.cfg) s t := by
  have hreset := lawful_encReset s.cfg
  obtain ⟨i, hdec, hi⟩ | rfl := takeTransaction_next h
  · obtain ⟨hhost, -⟩ := hasRecord_of_decodeHost hdec
    simpa [hinv] using (exec_hostBuilt hhost s).sentOnly (fun _ => hreset) t hi
  · exact .of_silent hreset (raise_log _ s) (raise_out _ s)

/-- So does every delivery that comes from the host or from the reset line (R60, R77). -/
theorem takeDelivery_sentOnly {d : Delivery} (hinv : s.inv = true) (hd : ∀ bytes, d ≠ .deliver (.command bytes))
    (h : takeDelivery d s = .next t) : SentOnly (Lawful s.cfg) s t := by
  match d with
  | .deliver (.transaction r) => exact takeTransaction_sentOnly hinv h
  | .deliver (.command bytes) => exact absurd rfl (hd bytes)
  | .cut r =>
    obtain ⟨u, hu, rfl⟩ := cutByReset_next h
    obtain ⟨hlog, hout⟩ := takeTransaction_sentOnly hinv hu
    exact ⟨hlog, hout⟩
  | .reset =>
    cases h
    exact .of_silent (lawful_encReset _) rfl rfl

/-- No delivered record changes what is left to deliver (R21). -/
theorem takeTransaction_input {r : HostRecord} (h : takeTransaction r s = .next t) : t.input = s.input := by
  obtain ⟨i, -, hi⟩ | rfl := takeTransaction_next h
  · exact (exec_fixed hi).2
  · exact raise_input _ s

/-- No delivery changes what is left to deliver (R21). -/
theorem takeDelivery_input {d : Delivery} (h : takeDelivery d s = .next t) : t.input = s.input := by
  match d with
  | .deliver (.transaction r) => exact takeTransaction_input h
  | .deliver (.command bytes) =>
    obtain ⟨i, -, hi⟩ := takeCommand_next h
    exact (exec_fixed hi).2
  | .cut r =>
    obtain ⟨u, hu, rfl⟩ := cutByReset_next h
    exact (takeTransaction_input hu :)
  | .reset =>
    cases h
    rfl

/-- While only the host and the reset line deliver, a step lets only commands of the grammar reach the transport, and
only the host and the reset line deliver after it. -/
theorem step_sentOnly (hinv : s.inv = true) (hhost : hostOnly s = true) (h : step s = .next t) :
    hostOnly t = true ∧ SentOnly (Lawful s.cfg) s t := by
  obtain ⟨-, rfl⟩ | ⟨d, rest, hin, hd⟩ := step_next h
  · exact ⟨hhost, .of_silent (lawful_encReset _) rfl rfl⟩
  · have hinv' : ({ s with input := rest } : State).inv = true := (inv_congr rfl rfl rfl rfl).trans hinv
    simp only [hostOnly, hin, List.all_cons, Bool.and_eq_true] at hhost
    obtain ⟨hfirst, hrest⟩ := hhost
    have hne : ∀ bytes, d ≠ .deliver (.command bytes) := by
      rintro bytes rfl
      cases hfirst
    obtain ⟨hlog, hout⟩ := takeDelivery_sentOnly hinv' hne hd
    refine ⟨?_, hlog, hout⟩
    rwa [hostOnly, takeDelivery_input hd]

end

end Machine

namespace Claims

open Sys2Proof.Machine

/-- Settles O23, by what a host transaction is built of. -/
theorem oneResponseUnlessReset : Obligations.OneResponseUnlessReset :=
  fun _ s t hhost h => (exec_hostBuilt hhost s).oneResponse t h

/-- Settles O42: R29 bounds the width of what is packed, and the operands of every other command are checked. -/
theorem outputStaysInTheGrammar : Obligations.OutputStaysInTheGrammar := by
  intro s t hinv hhost hlog h
  have hcfg := step_cfg h
  obtain ⟨hhost', hlog', hout⟩ := step_sentOnly hinv hhost h
  rw [hcfg]
  exact ⟨everyStepKeepsR29 s t hinv h, hhost', rfl, fun c hc => (hlog' c hc).elim (hlog c) id, hout⟩

end Claims

end Sys2Proof

/-! The row transactions (40_raster_to_bitplane.md R104 to R106): what packing a band of R29 gives, how the row that
completes a band sends it, and that a transaction answered with a validation error changed nothing (60_exceptions.md
R225). -/

namespace Sys2Proof

namespace Machine

open Sys2Proof.Claims

/-! ### What is read of a band of R29 -/

/-- A buffer whose rows are numbered from `k` on reads as the list of its rows (R41). -/
theorem Memory.read_of_range' {m : Memory} {k n : Nat} (h : m.map Prod.fst = List.range' k n) (r : Nat) :
    Memory.read m (k + r) = (m.map Prod.snd)[r]? := by
  induction m generalizing k n r with
  | nil => rfl
  | cons e rest ih =>
    cases n with
    | zero => cases h
    | succ n =>
      obtain ⟨rfl, hrest⟩ := List.cons.inj h
      cases r with
      | zero => exact if_pos rfl
      | succ r =>
        have hne : e.1 ≠ e.1 + (r + 1) := by omega
        calc Memory.read (e :: rest) (e.1 + (r + 1))
            = Memory.read rest (e.1 + (r + 1)) := if_neg hne
          _ = Memory.read rest (e.1 + 1 + r) := by rw [Nat.add_comm r 1, Nat.add_assoc]
          _ = (rest.map Prod.snd)[r]? := ih hrest r

/-- A cell of a band of R29 is the cell of the row that stands there (R41). -/
theorem bandRead_eq_some {s : State} {n r x : Nat} {c : Cell} (h : s.band.map Prod.fst = List.range n)
    (hc : bandRead s r x = some c) : ∃ row, (s.band.map Prod.snd)[r]? = some row ∧ row[x]? = some c := by
  rw [List.range_eq_range'] at h
  unfold bandRead at hc
  rw [← Nat.zero_add r, Memory.read_of_range' h r] at hc
  split at hc
  · cases hc
  · next row hrow => exact ⟨row, hrow, hc⟩

/-- The next row of a band of R29 is appended to its rows (R40, R104). -/
theorem Memory.write_next {m : Memory} {n : Nat} (h : m.map Prod.fst = List.range n) (row : Row) :
    Memory.write m n row = m ++ [(n, row)] := by
  refine Memory.write_append _ _ _ fun e he => ?_
  rw [← List.mem_range, ← h]
  exact List.mem_map_of_mem he

/-! ### What a packed band holds -/

/-- What is collected of the numbers below `n` stands at its number. -/
theorem getElem?_of_collect_range {α : Type} {f : Nat → Option α} {n i : Nat} {as : List α}
    (h : collect ((List.range n).map f) = some as) (hi : i < n) : ∃ a, as[i]? = some a ∧ f i = some a := by
  have hlen : as.length = n := by simpa using length_of_collect h
  have hget : ((List.range n).map f)[i]? = (as.map some)[i]? := congrArg (·[i]?) (collect_eq_some.mp h)
  refine ⟨as[i], by simp, ?_⟩
  simpa [hi, hlen] using hget

/-- In lists of one length that are joined, an element stands at its list's number times the length, plus its own. -/
theorem getElem?_flatten_of_length_eq {α : Type} {ls : List (List α)} {l : List α} {d x g : Nat}
    (h : ∀ l ∈ ls, l.length = d) (hx : ls[x]? = some l) (hg : g < d) : ls.flatten[d * x + g]? = l[g]? := by
  induction ls generalizing x with
  | nil => cases hx
  | cons first rest ih =>
    have hfirst : first.length = d := h first List.mem_cons_self
    rw [List.flatten_cons]
    cases x with
    | zero =>
      cases hx
      rw [Nat.mul_zero, Nat.zero_add, List.getElem?_append_left (hfirst ▸ hg)]
    | succ x =>
      have hindex : d * (x + 1) + g = first.length + (d * x + g) := by rw [hfirst]; ring
      rw [hindex, List.getElem?_append_right (Nat.le_add_right _ _), Nat.add_sub_cancel_left]
      exact ih (fun l hl => h l (List.mem_cons_of_mem _ hl)) hx

/-- Bit `7 - i` of a packed byte is the inverted cell of row `i` of its group (R130). -/
theorem packByte_bits {s : State} {g x i : Nat} {b : Byte} (h : packByte s g x = some b) (hi : i < 8) :
    ∃ c, bandRead s (8 * g + i) x = some c ∧ b.getLsbD (7 - i) = decide (c = dark) := by
  obtain ⟨cells, hcells, rfl⟩ := Option.map_eq_some_iff.mp h
  obtain ⟨c, hc, hread⟩ := getElem?_of_collect_range hcells hi
  refine ⟨c, hread, ?_⟩
  have hlen : cells.length = 8 := by simpa using length_of_collect hcells
  match cells, hlen with
  | [c0, c1, c2, c3, c4, c5, c6, c7], _ =>
    obtain ⟨_, rfl⟩ := List.getElem?_eq_some_iff.mp hc
    exact packCells_bits c0 c1 c2 c3 c4 c5 c6 c7 ⟨i, hi⟩

/-- Byte `density * x + g` of a packed band is the byte of row group `g` of column `x` (R131, R132). -/
theorem packBand_bytes {s : State} {v : Variant} {w : U16} {data : List Byte} {x g : Nat}
    (h : packBand s v w = some data) (hx : x < w.toNat) (hg : g < density v) :
    ∃ b, data[density v * x + g]? = some b ∧ packByte s g x = some b := by
  obtain ⟨columns, hcolumns, rfl⟩ := Option.map_eq_some_iff.mp h
  obtain ⟨column, hat, hcolumn⟩ := getElem?_of_collect_range hcolumns hx
  obtain ⟨b, hb, hpack⟩ := getElem?_of_collect_range hcolumn hg
  have hlen : ∀ l ∈ columns, l.length = density v := by
    intro l hl
    obtain ⟨_, -, hl⟩ := List.mem_map.mp (mem_of_collect hcolumns hl)
    simpa using length_of_collect hl
  exact ⟨b, (getElem?_flatten_of_length_eq hlen hat hg).trans hb, hpack⟩

/-- What a band of R29 packs to is the packed form of its rows (R130 to R133). -/
theorem packed_of_packBand {s : State} {v : Variant} {w : U16} {n : Nat} {data : List Byte}
    (hrange : s.band.map Prod.fst = List.range n) (h : packBand s v w = some data) :
    Packed (s.band.map Prod.snd) v w.toNat data := by
  refine ⟨length_of_packBand h, fun x hx g hg i hi => ?_⟩
  obtain ⟨b, hb, hpack⟩ := packBand_bytes h hx hg
  obtain ⟨c, hread, hbit⟩ := packByte_bits hpack hi
  obtain ⟨row, hrow, hc⟩ := bandRead_eq_some hrange hread
  exact ⟨b, row, c, hb, hrow, hc, hbit⟩

/-! ### How a band is sent -/

/-- An `Emit` that the transport fails raises `TransportUnavailable` (R45, R227). -/
theorem emitThen_of_transportFails {bytes : List Byte} {s t : State} (h : TransportFails s bytes t)
    (k : State → Result) : emitThen bytes s k = .next (raise .transportUnavailable t) := by
  obtain ⟨n, l, hw, rfl⟩ | ⟨l₁, n, l, hw, hf, rfl⟩ := h
  · exact emitThen_of_write_fail bytes k hw
  · exact emitThen_of_flush_fail bytes k hw hf

/-- A transport failure ends an open session (R227). -/
theorem raise_transportUnavailable_of_image {s : State} {m : Byte} {w : U16} (h : s.session = .image m w) :
    raise .transportUnavailable s = answered (closed s) .transportUnavailable := by
  rw [raise_transportUnavailable, abandon_of_image h]
  rfl

/-- An `Emit` fails the same way whatever the session's own elements are, and leaves them alone (R45). -/
theorem transportFails_of_sameButSession {bytes : List Byte} {s t u : State} (h : TransportFails s bytes t)
    (hu : SameButSession s u) :
    TransportFails u bytes { t with session := u.session, rowcnt := u.rowcnt, band := u.band } := by
  rw [hu]
  obtain ⟨n, l, hw, rfl⟩ | ⟨l₁, n, l, hw, hf, rfl⟩ := h
  · exact .inl ⟨n, l, hw, rfl⟩
  · exact .inr ⟨l₁, n, l, hw, hf, rfl⟩

section

variable {s u : State} {m : Byte} {w : U16} {v : Variant} {data : List Byte}

/-- A full band that the transport accepts is sent as one Image-band command, and the accumulator is cleared (R136). -/
theorem bandComplete_of_accepts {l : Link} (hu : SameButSession s u) (hpack : packBand u v w = some data)
    (h : Link.Accepts s.link l) (k : State → Result) :
    bandComplete m w v u k
      = k { sent s (bandCommand m w data) l with session := u.session, rowcnt := 0#5, band := [] } := by
  have hlink : Link.Accepts u.link l := by
    rw [hu]
    exact h
  unfold bandComplete
  rw [hpack]
  refine (emitThen_of_accepts _ _ hlink).trans ?_
  rw [hu]
  rfl

/-- A full band that the transport fails ends the session (R136, R227). -/
theorem bandComplete_of_transportFails {t : State} (hu : SameButSession s u) (hs : u.session = .image m w)
    (hpack : packBand u v w = some data) (h : TransportFails s (bandCommand m w data) t) (k : State → Result) :
    bandComplete m w v u k = .next (answered (closed t) .transportUnavailable) := by
  unfold bandComplete
  rw [hpack]
  exact (emitThen_of_transportFails (transportFails_of_sameButSession h hu) _).trans
    (congrArg Host.Outcome.next (raise_transportUnavailable_of_image hs))

end

/-! ### How a row is taken -/

/-- `s` with `row` as the next row of its band (R104). -/
def withRow (s : State) (row : Row) : State :=
  { bandWrite s s.rowcnt.toNat row with rowcnt := s.rowcnt + 1#5 }

section

variable {s : State} {m : Byte} {w : U16} {v : Variant} {row : Row}

theorem rowTransaction_of_idle (hs : s.session = .idle) : rowTransaction row s = .next (answered s .sequenceError) := by
  unfold rowTransaction
  rw [hs]
  rfl

theorem rowTransaction_of_length_ne (hs : s.session = .image m w) (hlen : row.length ≠ w.toNat) :
    rowTransaction row s = .next (answered s .invalidDimension) := by
  unfold rowTransaction
  rw [hs]
  exact if_neg hlen

/-- A row of the right length is stored, and then the band is sent if it is full (R104). -/
theorem rowTransaction_of_length_eq (hs : s.session = .image m w) (hv : variantOf s.cfg m = some v)
    (hlen : row.length = w.toNat) (hlt : s.rowcnt.toNat < rowlimit v) :
    rowTransaction row s
      = if s.rowcnt.toNat + 1 = rowlimit v then bandComplete m w v (withRow s row) fun u => .next (respond .ok u)
        else .next (respond .ok (withRow s row)) := by
  unfold rowTransaction
  rw [hs]
  refine (if_pos hlen).trans ?_
  unfold acceptRow
  rw [hv]
  refine (if_pos hlt).trans ?_
  rw [← rowcnt_succ hlt]
  rfl

/-- In a band of R29 the row comes after those before it (R104). -/
theorem withRow_eq (hrange : s.band.map Prod.fst = List.range s.rowcnt.toNat) :
    withRow s row = { s with
      band := s.band ++ [(s.rowcnt.toNat, row)], rowcnt := BitVec.ofNat 5 (s.rowcnt.toNat + 1) } := by
  unfold withRow bandWrite
  rw [Memory.write_next hrange, BitVec.ofNat_add, BitVec.ofNat_toNat, BitVec.setWidth_eq]

/-- With the row that completes it, a band of R29 packs, to the packed form of its rows and that one (R104, R136). -/
theorem packBand_withRow (hinv : s.inv = true) (hs : s.session = .image m w) (hlen : row.length = w.toNat)
    (hlast : s.rowcnt.toNat + 1 = rowlimit v) :
    ∃ data, packBand (withRow s row) v w = some data ∧ Packed (s.band.map Prod.snd ++ [row]) v w.toNat data := by
  obtain ⟨-, -, -, -, -, hrange, hrows⟩ := inv_image hinv hs
  obtain ⟨hrange', hrows'⟩ := Memory.write_next_row hrange hrows hlen
  rw [hlast] at hrange'
  obtain ⟨data, hpack⟩ := packBand_of_rowsWritten (s := withRow s row) (rowsWritten_of_range hrange' hrows')
  have hpacked := packed_of_packBand (s := withRow s row) hrange' hpack
  rw [withRow_eq hrange, List.map_append] at hpacked
  exact ⟨data, hpack, hpacked⟩

end

/-- An instruction whose meaning is the row transaction of `row` brings that row (R105, R106). -/
theorem brings_of_rowTransaction {i : Instr} {hop : Byte} {row : Row} (hopcode : HasOpcode i hop)
    (h : ∀ s, exec i s = rowTransaction row s) : RowTransaction i hop row := by
  refine ⟨hopcode, fun s hs => ?_, fun s m w hs hlen => ?_, fun s m w v hinv hs hv hlen hlt => ?_,
    fun s m w v hinv hs hv hlen hlast => ?_⟩
  · rw [h, rowTransaction_of_idle hs]
  · rw [h, rowTransaction_of_length_ne hs hlen]
  · obtain ⟨-, -, -, -, -, hrange, -⟩ := inv_image hinv hs
    rw [h, rowTransaction_of_length_eq hs hv hlen (by omega), if_neg hlt.ne, withRow_eq hrange]
    rfl
  · obtain ⟨data, hpack, hpacked⟩ := packBand_withRow hinv hs hlen hlast
    have hsame : SameButSession s (withRow s row) := rfl
    have hexec : exec i s = bandComplete m w v (withRow s row) fun u => .next (respond .ok u) := by
      rw [h, rowTransaction_of_length_eq hs hv hlen (by omega), if_pos hlast]
    exact ⟨data, hpacked, fun l hl => hexec.trans (bandComplete_of_accepts hsame hpack hl _),
      fun t ht => hexec.trans (bandComplete_of_transportFails hsame hs hpack ht _)⟩

/-! ### What a validation error changes -/

/-- If `o` adds one response to `before`, it is OK or TransportUnavailable. -/
def AnswersNoValidationError (before : List Response) (o : Result) : Prop :=
  ∀ t r, o = .next t → t.responses = before ++ [r] → r = .ok ∨ r = .transportUnavailable

/-- Either `o` is `s` with a response and nothing else changed, or it is no validation error (R225). -/
def ValidatesFirst (s : State) (o : Result) : Prop :=
  (∃ r, o = .next (answered s r)) ∨ AnswersNoValidationError s.responses o

section

variable {s u : State} {before : List Response}

theorem fault_noValidationError (f : Fault) : AnswersNoValidationError before (.fault f) := nofun

theorem ok_noValidationError (hu : u.responses = before) :
    AnswersNoValidationError before (.next (respond .ok u)) := by
  rintro _ r ⟨⟩ hr
  rw [respond_responses, hu] at hr
  cases List.append_cancel_left hr
  exact .inl rfl

/-- After an `Emit` there is no validation error if the rest of the meaning answers none (R45, R229). -/
theorem emitThen_noValidationError {bytes : List Byte} {k : State → Result} (hu : u.responses = before)
    (hk : ∀ u', u'.responses = before → AnswersNoValidationError before (k u')) :
    AnswersNoValidationError before (emitThen bytes u k) := by
  subst hu
  intro t r ht hr
  obtain ⟨l, h⟩ | ⟨n, l, rfl⟩ | ⟨l, rfl⟩ | ⟨n, l, rfl⟩ | ⟨l, rfl⟩ := emitThen_next ht
  · refine hk _ ?_ t r h hr
    rfl
  · exact .inr (by simpa using hr.symm)
  · exact .inr (by simpa using hr.symm)
  · exact absurd hr (by simp)
  · exact absurd hr (by simp)

theorem bandComplete_noValidationError {m : Byte} {w : U16} {v : Variant} {k : State → Result}
    (hu : u.responses = before) (hk : ∀ u', u'.responses = before → AnswersNoValidationError before (k u')) :
    AnswersNoValidationError before (bandComplete m w v u k) := by
  unfold bandComplete
  split
  · exact fault_noValidationError _
  · exact emitThen_noValidationError hu fun u' => hk { u' with rowcnt := 0#5, band := [] }

theorem acceptRow_noValidationError (m : Byte) (w : U16) (row : Row) (s : State) :
    AnswersNoValidationError s.responses (acceptRow m w row s) := by
  unfold acceptRow
  split
  · exact fault_noValidationError _
  · split
    · dsimp only
      split
      · exact bandComplete_noValidationError rfl fun _ hu' => ok_noValidationError hu'
      · exact ok_noValidationError rfl
    · exact fault_noValidationError _

theorem closeImage_noValidationError (hu : u.responses = before) : AnswersNoValidationError before (closeImage u) :=
  emitThen_noValidationError hu fun _ hu' => ok_noValidationError hu'

theorem standalone_validatesFirst (bytes : List Byte) (s : State) : ValidatesFirst s (standalone bytes s) := by
  unfold standalone
  split
  · exact .inl ⟨_, rfl⟩
  · exact .inr (emitThen_noValidationError rfl fun _ hu' => ok_noValidationError hu')

theorem bcupc_validatesFirst (c : List Byte) (s : State) : ValidatesFirst s (execBcupc c s) := by
  unfold execBcupc
  split
  · exact .inl ⟨_, rfl⟩
  · split
    · exact .inr (emitThen_noValidationError rfl fun _ hu' => ok_noValidationError hu')
    · exact .inl ⟨_, rfl⟩

theorem ibegin_validatesFirst (m : Byte) (w : U16) (s : State) : ValidatesFirst s (execIbegin m w s) := by
  unfold execIbegin
  split
  · exact .inl ⟨_, rfl⟩
  · split
    · exact .inl ⟨_, rfl⟩
    · split
      · exact .inl ⟨_, rfl⟩
      · exact .inr (emitThen_noValidationError rfl fun _ hu' => ok_noValidationError hu')

theorem rowTransaction_validatesFirst (row : Row) (s : State) : ValidatesFirst s (rowTransaction row s) := by
  unfold rowTransaction
  split
  · exact .inl ⟨_, rfl⟩
  · split
    · exact .inr (acceptRow_noValidationError _ _ row s)
    · exact .inl ⟨_, rfl⟩

theorem iend_validatesFirst (s : State) : ValidatesFirst s (execIend s) := by
  unfold execIend
  split
  · exact .inl ⟨_, rfl⟩
  · refine .inr ?_
    split
    · exact closeImage_noValidationError rfl
    · split
      · exact fault_noValidationError _
      · split
        · exact bandComplete_noValidationError rfl fun _ => closeImage_noValidationError
        · exact fault_noValidationError _

/-- Every host transaction validates before it changes anything (R225, R229). -/
theorem exec_validatesFirst {i : Instr} (h : i.port = .host) (s : State) : ValidatesFirst s (exec i s) := by
  cases i with
  | bcupc c => exact bcupc_validatesFirst c s
  | ibegin m w => exact ibegin_validatesFirst m w s
  | irowg _ | irowm _ => exact rowTransaction_validatesFirst _ s
  | iend => exact iend_validatesFirst s
  | prst | cut | pcut | lfr _ | pmode _ | dbl _ | ul _ | bch _ | bcw _ | bctp _ | bcf _ =>
    exact standalone_validatesFirst _ s
  | _ => cases h

end

end Machine

namespace Claims

open Sys2Proof.Machine

/-- Settles O7: IROWG brings the row of its thresholded samples. -/
theorem irowgBringsAThresholdedRow : Obligations.IrowgBringsAThresholdedRow :=
  fun _ => brings_of_rowTransaction ⟨_, fun _ => rfl⟩ fun _ => rfl

/-- Settles O8: IROWM brings the row of its cells. -/
theorem irowmBringsItsRow : Obligations.IrowmBringsItsRow :=
  fun _ => brings_of_rowTransaction ⟨_, fun _ => rfl⟩ fun _ => rfl

/-- Settles O25: a host transaction validates before it changes anything, and then only the transport can fail it. -/
theorem validationErrorsChangeNothing : Obligations.ValidationErrorsChangeNothing := by
  intro i s t r hhost h hresp hok hfail
  obtain ⟨r', herr⟩ | hnone := exec_validatesFirst hhost s
  · cases herr.symm.trans h
    cases List.append_cancel_left hresp
    rfl
  · exact absurd (hnone t r h hresp) (by simp [hok, hfail])

end Claims

end Sys2Proof

/-! The bit packer (41_bit_packer.md): that a band whose cells hold values packs, what a band of one colour packs to, and
what a padded band reads. -/

namespace Sys2Proof

namespace Machine

/-! ### That a band packs -/

/-- The rows of a row group lie below the band height (R24, R131, R132). -/
theorem row_lt_rowlimit {v : Variant} {g i : Nat} (hg : g < density v) (hi : i < 8) : 8 * g + i < rowlimit v := by
  rw [rowlimit_eq]
  omega

/-- A row group packs where its eight cells hold values (R130). -/
theorem packByte_of_cells {s : State} {g x : Nat} (h : ∀ i < 8, ∃ c, bandRead s (8 * g + i) x = some c) :
    ∃ b, packByte s g x = some b := by
  obtain ⟨cells, hcells⟩ := collect_range h
  exact ⟨packCells cells, Option.map_eq_some_iff.mpr ⟨cells, hcells, rfl⟩⟩

/-- A band packs where its cells hold values (R131, R132). -/
theorem packBand_of_cells {s : State} {v : Variant} {w : U16}
    (h : ∀ r < rowlimit v, ∀ x < w.toNat, ∃ c, bandRead s r x = some c) : ∃ data, packBand s v w = some data := by
  have hcolumn : ∀ x < w.toNat, ∃ column, packColumn s (density v) x = some column := fun x hx =>
    collect_range fun _ hg => packByte_of_cells fun _ hi => h _ (row_lt_rowlimit hg hi) x hx
  obtain ⟨columns, hcolumns⟩ := collect_range hcolumn
  exact ⟨columns.flatten, Option.map_eq_some_iff.mpr ⟨columns, hcolumns, rfl⟩⟩

/-! ### What a band of one colour packs to -/

/-- One value at every number below `n` is collected `n` times. -/
theorem collect_range_const {α : Type} {f : Nat → Option α} {n : Nat} {a : α} (h : ∀ i < n, f i = some a) :
    collect ((List.range n).map f) = some (List.replicate n a) := by
  rw [collect_eq_some, List.map_replicate, List.eq_replicate_iff]
  refine ⟨by simp, fun o ho => ?_⟩
  obtain ⟨i, hi, rfl⟩ := List.mem_map.mp ho
  exact h i (List.mem_range.mp hi)

/-- The byte of a row group whose eight cells are all `c` (R130, R135). -/
def uniformByte (c : Cell) : Byte := if c = dark then 0xFF#8 else 0x00#8

/-- Eight dark cells pack to FF, eight light ones to 00 (R130, R135). -/
theorem packCells_replicate (c : Cell) : packCells (List.replicate 8 c) = uniformByte c := by
  revert c
  decide

theorem packByte_of_uniform {s : State} {g x : Nat} {c : Cell} (h : ∀ i < 8, bandRead s (8 * g + i) x = some c) :
    packByte s g x = some (uniformByte c) := by
  rw [packByte, collect_range_const h, Option.map_some, packCells_replicate]

/-- A band of one colour packs to `density * WIDTH` equal bytes (R131, R132, R135). -/
theorem packBand_of_uniform {s : State} {v : Variant} {w : U16} {c : Cell}
    (h : ∀ r < rowlimit v, ∀ x < w.toNat, bandRead s r x = some c) :
    packBand s v w = some (List.replicate (density v * w.toNat) (uniformByte c)) := by
  have hcolumn : ∀ x < w.toNat, packColumn s (density v) x = some (List.replicate (density v) (uniformByte c)) :=
    fun x hx => collect_range_const fun _ hg => packByte_of_uniform fun _ hi => h _ (row_lt_rowlimit hg hi) x hx
  rw [packBand, collect_range_const hcolumn, Option.map_some, List.flatten_replicate_replicate, Nat.mul_comm]

/-! ### What a padded band reads -/

/-- The band height fits `ROWCNT` (R24, R26). -/
theorem toNat_ofNat_rowlimit (v : Variant) : (BitVec.ofNat 5 (rowlimit v)).toNat = rowlimit v := by
  cases v <;> rfl

/-- A padding row reads light below the width (R41, R134). -/
theorem bandRead_padBand_padding {s : State} {v : Variant} {w : U16} {r x : Nat} (hlow : s.rowcnt.toNat ≤ r)
    (hhigh : r < rowlimit v) (hx : x < w.toNat) : bandRead (padBand w v s) r x = some light := by
  have hr : s.rowcnt.toNat ≤ r ∧ r < s.rowcnt.toNat + (rowlimit v - s.rowcnt.toNat) := ⟨hlow, by omega⟩
  simp [bandRead, padBand, Memory.read_foldl_write, hr, hx]

/-- Every other row reads as before (R41, R134). -/
theorem bandRead_padBand_other {s : State} {v : Variant} {w : U16} {r : Nat} (hlt : s.rowcnt.toNat < rowlimit v)
    (h : r < s.rowcnt.toNat ∨ rowlimit v ≤ r) (x : Nat) : bandRead (padBand w v s) r x = bandRead s r x := by
  have hr : ¬(s.rowcnt.toNat ≤ r ∧ r < s.rowcnt.toNat + (rowlimit v - s.rowcnt.toNat)) := by omega
  simp only [bandRead, padBand, Memory.read_foldl_write, List.mem_range'_1, if_neg hr]

end Machine

namespace Claims

open Sys2Proof.Machine

/-- Settles O30: a group of eight values packs, and each bit of its byte is the inverted cell of its row. -/
theorem packByteInvertsEachLane : Obligations.PackByteInvertsEachLane := by
  intro s g x h
  obtain ⟨b, hb⟩ := packByte_of_cells h
  exact ⟨b, hb, fun _ hi => packByte_bits hb hi⟩

/-- Settles O31: a band of values packs, `density` bytes a column, each byte at its column and group. -/
theorem packBandOrderAndLength : Obligations.PackBandOrderAndLength := by
  intro s v w h
  obtain ⟨data, hdata⟩ := packBand_of_cells h
  refine ⟨data, hdata, length_of_packBand hdata, fun x hx g hg => ?_⟩
  obtain ⟨b, hat, hpack⟩ := packBand_bytes hdata hx hg
  exact hat.trans hpack.symm

/-- Settles O32: every row group of a band of one colour packs to the same byte. -/
theorem polarityOfUniformBands : Obligations.PolarityOfUniformBands :=
  fun _ _ _ _ => packBand_of_uniform

/-- Settles O33: the padding rows are the rows that are written, and only the band and its counter are. -/
theorem padBandAddsLightRows : Obligations.PadBandAddsLightRows := by
  intro s v w hlt
  refine ⟨toNat_ofNat_rowlimit v, ?_, ?_, rfl⟩
  · exact fun _ hlow hhigh _ hx => bandRead_padBand_padding hlow hhigh hx
  · exact fun _ x hr => bandRead_padBand_other hlt hr x

end Claims

end Sys2Proof

/-! The command encoder's single commands (42_command_encoder.md): the stand-alone transactions R174 to R186, the device
commands R160 to R173, and the transactions IBEGIN and IEND around the rows of an image (R187, R188). -/

namespace Sys2Proof

/-- The parameter of a host boolean is 01 unless it is 0 (R72). -/
theorem boolByte_eq_ite (b : Byte) : boolByte b = if b ≠ 0 then 0x01#8 else 0x00#8 := by
  simp [boolByte]

/-- The byte of a Boolean is its own parameter (R72). -/
theorem boolByte_byteOfBool (on : Bool) : boolByte (byteOfBool on) = if on then 0x01#8 else 0x00#8 := by
  cases on <;> rfl

/-- The digits are the bytes from `0` to `9` (R74). -/
theorem digitsOf_eq_filter (c : List Byte) :
    digitsOf c = c.filter fun x => decide (0x30 ≤ x.toNat ∧ x.toNat ≤ 0x39) :=
  List.filter_congr fun _ _ => (Bool.decide_and _ _).symm

/-- The accepted digit counts are 11 and 12 (R186). -/
theorem upcLengthOk_iff {n : Nat} : upcLengthOk n = true ↔ n = 11 ∨ n = 12 := by
  simp only [upcLengthOk, Bool.and_eq_true, decide_eq_true_eq]
  omega

/-- A variant's code names a variant, whatever the other parameters are (R24). -/
theorem exists_variantOf_of_modeCode {cfg : Config} {m : Byte} {v : Variant} (h : m = cfg.modeCode v) :
    ∃ u, variantOf cfg m = some u :=
  Option.ne_none_iff_exists'.mp fun hnone => variantOf_eq_none_iff.mp hnone v h

namespace Machine

open Sys2Proof.Claims

/-! ### What a transport failure leaves alone -/

/-- A failed `Emit` leaves the session open (R45). -/
theorem session_of_transportFails {bytes : List Byte} {s t : State} (h : TransportFails s bytes t) :
    t.session = s.session := by
  obtain ⟨n, l, -, rfl⟩ | ⟨l₁, n, l, -, -, rfl⟩ := h <;> rfl

/-- With no session open, a transport failure is an answer and nothing else (R227). -/
theorem raise_transportUnavailable_of_idle {s : State} (h : s.session = .idle) :
    raise .transportUnavailable s = answered s .transportUnavailable := by
  rw [raise_transportUnavailable, abandon_of_idle h]
  rfl

section

variable {bytes : List Byte} {s t : State} {m : Byte} {w : U16}

/-- In IDLE a failed `Emit` ends the transaction with its answer (R45, R227). -/
theorem emitThen_of_transportFails_idle (hs : s.session = .idle) (h : TransportFails s bytes t) (k : State → Result) :
    emitThen bytes s k = .next (answered t .transportUnavailable) := by
  rw [emitThen_of_transportFails h, raise_transportUnavailable_of_idle ((session_of_transportFails h).trans hs)]

/-- In IMAGE it ends the session too (R45, R227). -/
theorem emitThen_of_transportFails_image (hs : s.session = .image m w) (h : TransportFails s bytes t)
    (k : State → Result) : emitThen bytes s k = .next (answered (closed t) .transportUnavailable) := by
  rw [emitThen_of_transportFails h, raise_transportUnavailable_of_image ((session_of_transportFails h).trans hs)]

/-! ### Stand-alone commands -/

theorem standalone_of_idle (hs : s.session = .idle) :
    standalone bytes s = emitThen bytes s fun t => .next (respond .ok t) := by
  unfold standalone
  rw [hs]

theorem standalone_of_image (hs : s.session = .image m w) :
    standalone bytes s = .next (answered s .sequenceError) := by
  unfold standalone
  rw [hs]
  rfl

end

/-- An instruction whose meaning is the stand-alone transaction of `bytes` is that stand-alone command (R174). -/
theorem standaloneCommand_of_standalone {i : Instr} {hop : Byte} {bytes : Config → List Byte}
    (hopcode : HasOpcode i hop) (h : ∀ s, exec i s = standalone (bytes s.cfg) s) : Standalone i hop bytes := by
  refine ⟨hopcode, fun s l hs hl => ?_, fun s t hs ht => ?_, fun s m w hs => ?_⟩
  · rw [h, standalone_of_idle hs, emitThen_of_accepts _ _ hl]
    rfl
  · rw [h, standalone_of_idle hs, emitThen_of_transportFails_idle hs ht]
  · rw [h, standalone_of_image hs]

/-- With an accepted count of digits BCUPC is the stand-alone command that prints them (R186). -/
theorem execBcupc_of_upcLength {c : List Byte} (h : upcLengthOk (digitsOf c).length = true) (s : State) :
    execBcupc c s = standalone (encBarcodePrint s.cfg.bcModeUpca (digitsOf c)) s := by
  simp only [execBcupc, standalone, h, if_true]

/-- With any other count BCUPC is answered in IDLE with that error (R186, R222). -/
theorem execBcupc_of_not_upcLength {c : List Byte} (h : ¬ upcLengthOk (digitsOf c).length = true) {s : State}
    (hs : s.session = .idle) : execBcupc c s = .next (answered s .invalidBarcodeLength) := by
  unfold execBcupc
  rw [hs]
  exact if_neg h

/-- In IMAGE BCUPC is out of sequence, whatever its digits (R186, R229). -/
theorem execBcupc_of_image {c : List Byte} {s : State} {m : Byte} {w : U16} (hs : s.session = .image m w) :
    execBcupc c s = .next (answered s .sequenceError) := by
  unfold execBcupc
  rw [hs]
  rfl

/-- `SESSION`, `MODE`, `WIDTH`, `ROWCNT` and `BAND` are the same in `s` and `t`. -/
def SameSession (s t : State) : Prop := t.session = s.session ∧ t.rowcnt = s.rowcnt ∧ t.band = s.band

/-- A stand-alone transaction that is answered leaves the session's elements alone: in IMAGE it emits nothing, and in
IDLE there is no session to abandon (R174, R227). -/
theorem standalone_sameSession {bytes : List Byte} {s t : State} (h : standalone bytes s = .next t)
    (hresp : t.responses ≠ s.responses) : SameSession s t := by
  obtain hs | ⟨m, w, hs⟩ := session_cases s
  · rw [standalone_of_idle hs] at h
    obtain ⟨l, ⟨⟩⟩ | ⟨n, l, rfl⟩ | ⟨l, rfl⟩ | ⟨n, l, rfl⟩ | ⟨l, rfl⟩ := emitThen_next h
    · exact ⟨rfl, rfl, rfl⟩
    · rw [raise_transportUnavailable_of_idle (by exact hs)]
      exact ⟨rfl, rfl, rfl⟩
    · rw [raise_transportUnavailable_of_idle (by exact hs)]
      exact ⟨rfl, rfl, rfl⟩
    · exact absurd rfl hresp
    · exact absurd rfl hresp
  · rw [standalone_of_image hs] at h
    cases h
    exact ⟨rfl, rfl, rfl⟩

theorem bcupc_sameSession {c : List Byte} {s t : State} (h : execBcupc c s = .next t)
    (hresp : t.responses ≠ s.responses) : SameSession s t := by
  by_cases hlen : upcLengthOk (digitsOf c).length = true
  · rw [execBcupc_of_upcLength hlen] at h
    exact standalone_sameSession h hresp
  · obtain hs | ⟨m, w, hs⟩ := session_cases s
    · rw [execBcupc_of_not_upcLength hlen hs] at h
      cases h
      exact ⟨rfl, rfl, rfl⟩
    · rw [execBcupc_of_image hs] at h
      cases h
      exact ⟨rfl, rfl, rfl⟩

/-! ### Device commands -/

/-- An instruction whose meaning is the device command `bytes` is one `Emit` of it (R160). -/
theorem oneEmit_of_deviceCommand {i : Instr} {bytes : Config → List Byte}
    (h : ∀ s, exec i s = deviceCommand (bytes s.cfg) s) : OneEmit i bytes := by
  refine ⟨fun s l hl => ?_, fun s t hs ht => ?_, fun s m w t hs ht => ?_⟩
  · rw [h, deviceCommand, emitThen_of_accepts _ _ hl]
    rfl
  · rw [h, deviceCommand, emitThen_of_transportFails_idle hs ht]
  · rw [h, deviceCommand, emitThen_of_transportFails_image hs ht]

/-! ### IBEGIN -/

section

variable {m : Byte} {w : U16} {s : State}

theorem execIbegin_of_image {m' : Byte} {w' : U16} (hs : s.session = .image m' w') :
    execIbegin m w s = .next (answered s .sequenceError) := by
  unfold execIbegin
  rw [hs]
  rfl

theorem execIbegin_of_width (hs : s.session = .idle) (hw : w.toNat = 0 ∨ s.cfg.wmax.toNat < w.toNat) :
    execIbegin m w s = .next (answered s .invalidDimension) := by
  have hw' : w = 0#16 ∨ s.cfg.wmax < w := by bv_omega
  unfold execIbegin
  rw [hs]
  exact if_pos hw'

/-- A legal width passes the check on it (R187). -/
theorem not_illegal_width {wmax : U16} (hpos : 1 ≤ w.toNat) (hmax : w.toNat ≤ wmax.toNat) :
    ¬ (w = 0#16 ∨ wmax < w) := by
  bv_omega

theorem execIbegin_of_mode_none (hs : s.session = .idle) (hpos : 1 ≤ w.toNat) (hmax : w.toNat ≤ s.cfg.wmax.toNat)
    (hm : variantOf s.cfg m = none) : execIbegin m w s = .next (answered s .unsupportedMode) := by
  unfold execIbegin
  rw [hs]
  refine (if_neg (not_illegal_width hpos hmax)).trans ?_
  rw [hm]
  rfl

/-- With every check passed, the line-feed command is sent and then the session is opened (R187). -/
theorem execIbegin_of_legal {v : Variant} (hs : s.session = .idle) (hpos : 1 ≤ w.toNat)
    (hmax : w.toNat ≤ s.cfg.wmax.toNat) (hm : variantOf s.cfg m = some v) :
    execIbegin m w s = emitThen (encLineFeedRate 0x01#8) s fun t =>
      .next (respond .ok { t with session := .image m w, rowcnt := 0#5, band := [] }) := by
  unfold execIbegin
  rw [hs]
  refine (if_neg (not_illegal_width hpos hmax)).trans ?_
  rw [hm]

end

/-! ### IEND -/

section

variable {s u : State} {m : Byte} {w : U16} {v : Variant}

theorem execIend_of_idle (hs : s.session = .idle) : execIend s = .next (answered s .sequenceError) := by
  unfold execIend
  rw [hs]
  rfl

theorem execIend_of_rowcnt_zero (hs : s.session = .image m w) (hzero : s.rowcnt = 0#5) : execIend s = closeImage s := by
  unfold execIend
  rw [hs]
  exact if_pos hzero

/-- With rows left over, IEND pads their band, sends it, and closes the image (R188). -/
theorem execIend_of_rowcnt_ne_zero (hs : s.session = .image m w) (hv : variantOf s.cfg m = some v)
    (hlt : s.rowcnt.toNat < rowlimit v) (hne : s.rowcnt ≠ 0#5) :
    execIend s = bandComplete m w v (padBand w v s) closeImage := by
  unfold execIend
  rw [hs]
  refine (if_neg hne).trans ?_
  rw [hv]
  exact if_pos hlt

/-- Once the Reset command is accepted the session is over, whatever its elements were (R188). -/
theorem closeImage_of_accepts {l : Link} (hu : SameButSession s u) (h : Link.Accepts s.link l) :
    closeImage u = .next (answered (closed (sent s [0x1B#8, 0x40#8] l)) .ok) := by
  have hlink : Link.Accepts u.link l := by
    rw [hu]
    exact h
  refine (emitThen_of_accepts _ _ hlink).trans ?_
  rw [hu]
  rfl

/-- A failed Reset command ends the session too (R188, R227). -/
theorem closeImage_of_transportFails {t : State} (hu : SameButSession s u) (hs : u.session = .image m w)
    (h : TransportFails s [0x1B#8, 0x40#8] t) :
    closeImage u = .next (answered (closed t) .transportUnavailable) :=
  emitThen_of_transportFails_image hs (transportFails_of_sameButSession h hu) _

/-- Rows that are written one after the other below a band of R29 are appended to it (R134). -/
theorem foldl_write_range' {band : Memory} {n : Nat} (h : band.map Prod.fst = List.range n) (row : Row) (k : Nat) :
    (List.range' n k).foldl (fun b r => Memory.write b r row) band = band ++ (List.range' n k).map (·, row) := by
  induction k generalizing band n with
  | zero => simp
  | succ k ih =>
    have hnext : (band ++ [(n, row)]).map Prod.fst = List.range (n + 1) := by simp [h, List.range_succ]
    rw [List.range'_succ, List.foldl_cons, Memory.write_next h, ih hnext, List.map_cons, List.append_assoc]
    rfl

/-- The band that IEND pads packs, to the packed form of its rows with light rows below them (R134, R188). -/
theorem packBand_padBand (hinv : s.inv = true) (hs : s.session = .image m w) (hv : variantOf s.cfg m = some v) :
    ∃ data, packBand (padBand w v s) v w = some data ∧
      Packed (s.band.map Prod.snd ++ List.replicate (rowlimit v - s.rowcnt.toNat) (List.replicate w.toNat light))
        v w.toNat data := by
  obtain ⟨v', hv', -, -, hlt, hrange, hrows⟩ := inv_image hinv hs
  cases hv.symm.trans hv'
  have hband := foldl_write_range' hrange (List.replicate w.toNat light) (rowlimit v - s.rowcnt.toNat)
  have hnumbers : (padBand w v s).band.map Prod.fst = List.range (rowlimit v) := by
    have hsplit := List.range'_append_1 (s := 0) (m := s.rowcnt.toNat) (n := rowlimit v - s.rowcnt.toNat)
    rw [Nat.zero_add, Nat.add_sub_cancel' hlt.le] at hsplit
    simp [padBand, hband, hrange, Function.comp_def, List.range_eq_range', hsplit]
  have hpadded : (padBand w v s).band.map Prod.snd
      = s.band.map Prod.snd ++ List.replicate (rowlimit v - s.rowcnt.toNat) (List.replicate w.toNat light) := by
    simp [padBand, hband, Function.comp_def]
  obtain ⟨data, hpack⟩ := packBand_of_rowsWritten (rowsWritten_padBand (v := v) (rowsWritten_of_range hrange hrows))
  exact ⟨data, hpack, hpadded ▸ packed_of_packBand hnumbers hpack⟩

end

end Machine

namespace Claims

open Sys2Proof.Machine

/-- Settles O1: each is the stand-alone transaction of its two bytes. -/
theorem prstCutPcutEmitTheirCommand : Obligations.PrstCutPcutEmitTheirCommand :=
  ⟨standaloneCommand_of_standalone ⟨_, fun _ => rfl⟩ fun _ => rfl,
    standaloneCommand_of_standalone ⟨_, fun _ => rfl⟩ fun _ => rfl,
    standaloneCommand_of_standalone ⟨_, fun _ => rfl⟩ fun _ => rfl⟩

/-- Settles O2: each is the stand-alone transaction of its two bytes and the operand. -/
theorem lfrPmodePassTheirByte : Obligations.LfrPmodePassTheirByte := fun _ =>
  ⟨standaloneCommand_of_standalone ⟨_, fun _ => rfl⟩ fun _ => rfl,
    standaloneCommand_of_standalone ⟨_, fun _ => rfl⟩ fun _ => rfl⟩

/-- Settles O3, by the value of a boolean parameter. -/
theorem dblUlSendABoolean : Obligations.DblUlSendABoolean := by
  intro x
  rw [← boolByte_eq_ite x]
  exact ⟨standaloneCommand_of_standalone ⟨_, fun _ => rfl⟩ fun _ => rfl,
    standaloneCommand_of_standalone ⟨_, fun _ => rfl⟩ fun _ => rfl⟩

/-- Settles O4: each is the stand-alone transaction of its sub-command, as the state holds it, and the operand. -/
theorem barcodeSettingsPassTheirByte : Obligations.BarcodeSettingsPassTheirByte := fun _ =>
  ⟨standaloneCommand_of_standalone ⟨_, fun _ => rfl⟩ fun _ => rfl,
    standaloneCommand_of_standalone ⟨_, fun _ => rfl⟩ fun _ => rfl,
    standaloneCommand_of_standalone ⟨_, fun _ => rfl⟩ fun _ => rfl,
    standaloneCommand_of_standalone ⟨_, fun _ => rfl⟩ fun _ => rfl⟩

/-- Settles O5: with an accepted count BCUPC is a stand-alone command, with any other an error. -/
theorem bcupcPrintsElevenOrTwelveDigits : Obligations.BcupcPrintsElevenOrTwelveDigits := by
  rintro c digits - hdigits
  rw [← digitsOf_eq_filter] at hdigits
  subst hdigits
  rw [← upcLengthOk_iff]
  refine ⟨fun hlen => ?_, fun hlen => ?_⟩
  · exact standaloneCommand_of_standalone ⟨_, fun _ => rfl⟩ (execBcupc_of_upcLength hlen)
  · exact ⟨fun _ => execBcupc_of_not_upcLength hlen, fun _ _ _ => execBcupc_of_image⟩

/-- Settles O6: the checks in their order, then one `Emit`. -/
theorem ibeginOpensASession : Obligations.IbeginOpensASession := by
  refine fun m w => ⟨⟨_, fun _ => rfl⟩, fun s m' w' => execIbegin_of_image, fun s => execIbegin_of_width,
    fun s hs hpos hmax hm => ?_, fun s v l hs hpos hmax hm hl => ?_, fun s v t hs hpos hmax hm ht => ?_⟩
  · exact execIbegin_of_mode_none hs hpos hmax (variantOf_eq_none_iff.mpr hm)
  · obtain ⟨u, hu⟩ := exists_variantOf_of_modeCode hm
    exact (execIbegin_of_legal hs hpos hmax hu).trans (emitThen_of_accepts _ _ hl)
  · obtain ⟨u, hu⟩ := exists_variantOf_of_modeCode hm
    exact (execIbegin_of_legal hs hpos hmax hu).trans (emitThen_of_transportFails_idle hs ht _)

/-- Settles O9: the band that is sent before the Reset command is the padded one. -/
theorem iendPadsAndCloses : Obligations.IendPadsAndCloses := by
  refine ⟨⟨_, fun _ => rfl⟩, fun s => execIend_of_idle, fun s m w l hs hzero hl => ?_, fun s m w t hs hzero ht => ?_,
    fun s m w v hinv hs hv hne => ?_⟩
  · exact (execIend_of_rowcnt_zero hs hzero).trans (closeImage_of_accepts rfl hl)
  · exact (execIend_of_rowcnt_zero hs hzero).trans (closeImage_of_transportFails rfl hs ht)
  · obtain ⟨v', hv', -, -, hlt, -⟩ := inv_image hinv hs
    cases hv.symm.trans hv'
    obtain ⟨data, hpack, hpacked⟩ := packBand_padBand hinv hs hv
    have hexec : exec .iend s = bandComplete m w v (padBand w v s) closeImage :=
      execIend_of_rowcnt_ne_zero hs hv hlt hne
    have hsame : SameButSession s (padBand w v s) := rfl
    refine ⟨data, hpacked, fun l₁ l₂ h₁ h₂ => ?_, fun t ht => ?_, fun l₁ t h₁ ht => ?_⟩
    · rw [hexec, bandComplete_of_accepts hsame hpack h₁]
      exact closeImage_of_accepts rfl h₂
    · rw [hexec, bandComplete_of_transportFails hsame hs hpack ht]
    · rw [hexec, bandComplete_of_accepts hsame hpack h₁]
      exact closeImage_of_transportFails rfl hs ht

/-- Settles O46: each of the twelve is a stand-alone transaction, or BCUPC, whose error changes no session either. -/
theorem standaloneCommandsLeaveTheSession : Obligations.StandaloneCommandsLeaveTheSession := by
  intro i s t hport himage hbegin h hresp
  cases i with
  | bcupc c => exact bcupc_sameSession h hresp
  | ibegin m w => exact absurd rfl (hbegin m w)
  | prst | cut | pcut | lfr _ | pmode _ | dbl _ | ul _ | bch _ | bcw _ | bctp _ | bcf _ =>
    exact standalone_sameSession h hresp
  | irowg _ | irowm _ | iend => cases himage
  | _ => cases hport

/-- Settles O11, by the value of a Boolean parameter. -/
theorem escCommandsAreOneEmit : Obligations.EscCommandsAreOneEmit := by
  refine ⟨oneEmit_of_deviceCommand fun _ => rfl, oneEmit_of_deviceCommand fun _ => rfl,
    oneEmit_of_deviceCommand fun _ => rfl,
    fun x => ⟨oneEmit_of_deviceCommand fun _ => rfl, oneEmit_of_deviceCommand fun _ => rfl⟩, fun on => ?_⟩
  rw [← boolByte_byteOfBool on]
  exact ⟨oneEmit_of_deviceCommand fun _ => rfl, oneEmit_of_deviceCommand fun _ => rfl⟩

/-- Settles O12: each is one `Emit` of its bytes, with the sub-command that the state holds. -/
theorem barcodeAndBandCommandsAreOneEmit : Obligations.BarcodeAndBandCommandsAreOneEmit :=
  ⟨fun _ => ⟨oneEmit_of_deviceCommand fun _ => rfl, oneEmit_of_deviceCommand fun _ => rfl,
      oneEmit_of_deviceCommand fun _ => rfl, oneEmit_of_deviceCommand fun _ => rfl⟩,
    fun _ _ => oneEmit_of_deviceCommand fun _ => rfl, fun _ _ _ => oneEmit_of_deviceCommand fun _ => rfl⟩

end Claims

end Sys2Proof

/-! A whole image (42_command_encoder.md R189): the bands that its rows make, what the transport has accepted after each
of its transactions, and the run of all of them over a transport that accepts everything. -/

namespace Sys2Proof

namespace Claims

open Sys2Proof.Machine

theorem accepted_append (a b : List (List Byte)) : accepted (a ++ b) = accepted a ++ accepted b := by
  simp [accepted]

theorem length_bandCommand (m : Byte) (w : U16) (data : List Byte) : (bandCommand m w data).length = 5 + data.length := by
  simp only [bandCommand, List.length_append, List.length_cons, List.length_nil]

/-! ### The bands of an image -/

theorem bandCount_zero (v : Variant) : bandCount 0 v = 0 := by
  cases v <;> rfl

/-- A part of a band is a band (R189). -/
theorem bandCount_of_lt {h : Nat} {v : Variant} (hpos : 0 < h) (hlt : h < rowlimit v) : bandCount h v = 1 := by
  refine Nat.div_eq_of_lt_le ?_ ?_ <;> omega

/-- A whole band before the other rows is one band more (R189). -/
theorem bandCount_add (h : Nat) (v : Variant) : bandCount (rowlimit v + h) v = bandCount h v + 1 := by
  have hpos := rowlimit_pos v
  have hsum : rowlimit v + h + rowlimit v - 1 = h + rowlimit v - 1 + rowlimit v := by omega
  rw [bandCount, hsum, Nat.add_div_right _ hpos, bandCount]

/-- The first band of rows that fill none is padded with light rows (R134). -/
theorem bandRows_of_le {rows : List Row} {v : Variant} (h : rows.length ≤ rowlimit v) (w : Nat) :
    bandRows rows v w 0 = rows ++ List.replicate (rowlimit v - rows.length) (List.replicate w light) := by
  simp [bandRows, List.take_of_length_le h]

section

variable {first : List Row} {v : Variant} (h : first.length = rowlimit v) (rest : List Row) (w : Nat)

include h

/-- Rows that fill a band are the first one, with none below them. -/
theorem bandRows_append_zero : bandRows (first ++ rest) v w 0 = first := by
  simp [bandRows, ← h]

/-- The bands after a first whole one are those of the rows after it. -/
theorem bandRows_append_succ (b : Nat) : bandRows (first ++ rest) v w (b + 1) = bandRows rest v w b := by
  have hdrop : (first ++ rest).drop (rowlimit v * (b + 1)) = rest.drop (rowlimit v * b) := by
    rw [Nat.mul_succ, Nat.add_comm, ← h, ← List.drop_drop, List.drop_left]
  simp only [bandRows, hdrop]

end

/-- `bands` are the Image-band commands of an image with the rows `rows`, in order (R189). -/
structure ImageBands (m : Byte) (w : U16) (v : Variant) (rows : List Row) (bands : List (List Byte)) : Prop where
  count : bands.length = bandCount rows.length v
  packed : ∀ b < bands.length, ∃ data,
    bands[b]? = some (bandCommand m w data) ∧ Packed (bandRows rows v w.toNat b) v w.toNat data

section

variable {m : Byte} {w : U16} {v : Variant} {rows first : List Row} {bands : List (List Byte)} {data : List Byte}

theorem ImageBands.nil : ImageBands m w v [] [] := ⟨(bandCount_zero v).symm, nofun⟩

/-- Rows that fill no band make one padded band (R188, R189). -/
theorem ImageBands.padded (hpos : 0 < rows.length) (hlt : rows.length < rowlimit v)
    (h : Packed (rows ++ List.replicate (rowlimit v - rows.length) (List.replicate w.toNat light)) v w.toNat data) :
    ImageBands m w v rows [bandCommand m w data] := by
  refine ⟨(bandCount_of_lt hpos hlt).symm, fun b hb => ⟨data, ?_, ?_⟩⟩
  all_goals obtain rfl : b = 0 := Nat.lt_one_iff.mp hb
  · rfl
  · rwa [bandRows_of_le hlt.le]

/-- Rows that fill a band make the band before those of the rows after them (R136, R189). -/
theorem ImageBands.cons (hfirst : first.length = rowlimit v) (hpacked : Packed first v w.toNat data)
    (h : ImageBands m w v rows bands) : ImageBands m w v (first ++ rows) (bandCommand m w data :: bands) := by
  refine ⟨by rw [List.length_append, hfirst, bandCount_add, ← h.count, List.length_cons], fun b hb => ?_⟩
  cases b with
  | zero => exact ⟨data, rfl, by rwa [bandRows_append_zero hfirst]⟩
  | succ b =>
    rw [bandRows_append_succ hfirst]
    exact h.packed b (Nat.lt_of_succ_lt_succ hb)

/-- The bands' bytes (R173, R189). -/
theorem ImageBands.length_flatten (h : ImageBands m w v rows bands) :
    bands.flatten.length = bandCount rows.length v * (5 + density v * w.toNat) := by
  have hband : ∀ band ∈ bands, band.length = 5 + density v * w.toNat := by
    intro band hmem
    obtain ⟨b, hb, rfl⟩ := List.getElem_of_mem hmem
    obtain ⟨data, hat, hlen, -⟩ := h.packed b hb
    rw [List.getElem?_eq_getElem hb, Option.some.injEq] at hat
    rw [hat, length_bandCommand, hlen]
  rw [List.length_flatten, List.sum_eq_card_nsmul _ (5 + density v * w.toNat) (by simpa using hband), List.length_map,
    h.count, smul_eq_mul]

end

end Claims

namespace Machine

open Sys2Proof.Claims

/-! ### Transactions over a transport that accepts everything -/

/-- A transport that accepts everything accepts the next command, and everything after it. -/
theorem Link.accepts_of_allOk {l : Link} (h : Link.allOk l = true) :
    ∃ l', Link.Accepts l l' ∧ Link.allOk l' = true := by
  have hnext : ∀ l, Link.allOk l = true → ∃ l', Link.next l = some (.ok, l') ∧ Link.allOk l' = true := by
    rintro ⟨answers, tail⟩ hl
    simp only [Link.allOk, Bool.and_eq_true, decide_eq_true_eq, List.all_eq_true] at hl
    obtain ⟨hanswers, rfl⟩ := hl
    cases answers with
    | nil => exact ⟨_, rfl, rfl⟩
    | cons a rest =>
      obtain ⟨rfl, hrest⟩ := List.forall_mem_cons.mp hanswers
      exact ⟨_, rfl, by simpa [Link.allOk] using hrest⟩
  obtain ⟨l₁, hwrite, h₁⟩ := hnext l h
  obtain ⟨l₂, hflush, h₂⟩ := hnext l₁ h₁
  exact ⟨l₂, ⟨l₁, hwrite, hflush⟩, h₂⟩

/-- From `s` to `t` a transport that accepts everything accepted `cmds`, and `n` transactions answered OK; the parameters
and what is delivered are as before. -/
structure Progress (s t : State) (cmds : List (List Byte)) (n : Nat) : Prop where
  out : t.out = s.out ++ cmds.flatten
  log : t.log = s.log ++ accepted cmds
  responses : t.responses = s.responses ++ List.replicate n .ok
  cfg : t.cfg = s.cfg
  input : t.input = s.input
  link : Link.allOk t.link = true

theorem Progress.trans {s t u : State} {cmds cmds' : List (List Byte)} {n n' : Nat} (hst : Progress s t cmds n)
    (htu : Progress t u cmds' n') : Progress s u (cmds ++ cmds') (n + n') where
  out := by rw [htu.out, hst.out, List.flatten_append, List.append_assoc]
  log := by rw [htu.log, hst.log, accepted_append, List.append_assoc]
  responses := by rw [htu.responses, hst.responses, List.replicate_add, List.append_assoc]
  cfg := htu.cfg.trans hst.cfg
  input := htu.input.trans hst.input
  link := htu.link

/-- A transaction that sends one command and answers OK, whatever it does to the session's own elements. -/
theorem Progress.of_sent {s u : State} {c : List Byte} {l : Link} (hl : Link.allOk l = true)
    (hu : SameButSession (answered (sent s c l) .ok) u) : Progress s u [c] 1 := by
  rw [hu]
  exact ⟨by simp [answered, sent], rfl, rfl, rfl, rfl, hl⟩

/-- A transaction that sends nothing and answers OK. -/
theorem Progress.of_answered {s u : State} (hl : Link.allOk s.link = true)
    (hu : SameButSession (answered s .ok) u) : Progress s u [] 1 := by
  rw [hu]
  exact ⟨by simp [answered], by simp [answered, accepted], rfl, rfl, rfl, hl⟩

/-- In a state of R29 with a session of mode `m`, width `w` and variant `v`, the current band has the rows `rows`. -/
structure Collecting (m : Byte) (w : U16) (v : Variant) (rows : List Row) (s : State) : Prop where
  inv : s.inv = true
  session : s.session = .image m w
  variant : variantOf s.cfg m = some v
  rows : s.band.map Prod.snd = rows

section

variable {m : Byte} {w : U16} {v : Variant} {rows : List Row} {row : Row} {s : State}

/-- `ROWCNT` counts the rows of the band (R26, R29). -/
theorem Collecting.rowcnt (h : Collecting m w v rows s) : s.rowcnt.toNat = rows.length := by
  obtain ⟨-, -, -, -, -, hrange, -⟩ := inv_image h.inv h.session
  calc s.rowcnt.toNat
      = (s.band.map Prod.fst).length := by rw [hrange, List.length_range]
    _ = (s.band.map Prod.snd).length := by rw [List.length_map, List.length_map]
    _ = rows.length := by rw [h.rows]

/-- The band is not full (R29). -/
theorem Collecting.length_lt (h : Collecting m w v rows s) : rows.length < rowlimit v := by
  obtain ⟨v', hv', -, -, hlt, -⟩ := inv_image h.inv h.session
  cases h.variant.symm.trans hv'
  rwa [← h.rowcnt]

/-- The next state of an instruction started in a state of R29 is one. -/
theorem inv_of_exec {i : Instr} {t : State} (hinv : s.inv = true) (h : exec i s = .next t) : t.inv = true := by
  have hkeeps := exec_keepsInv hinv i
  rw [h] at hkeeps
  cases hkeeps with
  | next ht => exact ht

/-- A line that brings a row is a row transaction of that row (R105, R106). -/
theorem rowTransaction_of_rowOf {i : Instr} (h : rowOf i = some row) : ∃ hop, RowTransaction i hop row := by
  cases i with
  | irowg _ =>
    cases h
    exact ⟨_, irowgBringsAThresholdedRow _⟩
  | irowm _ =>
    cases h
    exact ⟨_, irowmBringsItsRow _⟩
  | _ => cases h

/-- A row that leaves the band unfilled joins it, and nothing is sent (R104). -/
theorem Collecting.exec_row {i : Instr} (h : Collecting m w v rows s) (hl : Link.allOk s.link = true)
    (hi : rowOf i = some row) (hlen : row.length = w.toNat) (hlt : rows.length + 1 < rowlimit v) :
    ∃ t, exec i s = .next t ∧ Collecting m w v (rows ++ [row]) t ∧ Progress s t [] 1 := by
  obtain ⟨hop, -, -, -, hbelow, -⟩ := rowTransaction_of_rowOf hi
  have hexec := hbelow s m w v h.inv h.session h.variant hlen (h.rowcnt ▸ hlt)
  refine ⟨_, hexec, ⟨inv_of_exec h.inv hexec, h.session, h.variant, ?_⟩, .of_answered hl rfl⟩
  rw [← h.rows]
  exact List.map_append

/-- A row that fills the band has it sent, and the next band is empty (R104, R136). -/
theorem Collecting.exec_last_row {i : Instr} (h : Collecting m w v rows s) (hl : Link.allOk s.link = true)
    (hi : rowOf i = some row) (hlen : row.length = w.toNat) (hlast : rows.length + 1 = rowlimit v) :
    ∃ t data, exec i s = .next t ∧ Collecting m w v [] t ∧ Packed (rows ++ [row]) v w.toNat data ∧
      Progress s t [bandCommand m w data] 1 := by
  obtain ⟨hop, -, -, -, -, hfull⟩ := rowTransaction_of_rowOf hi
  obtain ⟨data, hpacked, hok, -⟩ := hfull s m w v h.inv h.session h.variant hlen (h.rowcnt ▸ hlast)
  obtain ⟨l, haccepts, hl'⟩ := Link.accepts_of_allOk hl
  have hexec := hok l haccepts
  rw [h.rows] at hpacked
  exact ⟨_, data, hexec, ⟨inv_of_exec h.inv hexec, h.session, h.variant, rfl⟩, hpacked, .of_sent hl' rfl⟩

/-- IEND sends the band of the rows left over, padded, and the Reset command, and closes the session (R188). -/
theorem Collecting.exec_iend (h : Collecting m w v rows s) (hl : Link.allOk s.link = true) :
    ∃ t bands, exec .iend s = .next t ∧ ImageBands m w v rows bands ∧ t = closed t ∧
      Progress s t (bands ++ [[0x1B#8, 0x40#8]]) 1 := by
  obtain ⟨-, -, hempty, -, hleft⟩ := iendPadsAndCloses
  obtain ⟨l₁, h₁, hl₁⟩ := Link.accepts_of_allOk hl
  by_cases hzero : s.rowcnt = 0#5
  · have hnil : rows = [] := by
      rw [← List.length_eq_zero_iff, ← h.rowcnt, hzero]
      rfl
    subst hnil
    exact ⟨_, [], hempty s m w l₁ h.session hzero h₁, .nil, rfl, .of_sent hl₁ rfl⟩
  · obtain ⟨data, hpacked, hok, -⟩ := hleft s m w v h.inv h.session h.variant hzero
    obtain ⟨l₂, h₂, hl₂⟩ := Link.accepts_of_allOk hl₁
    have hpos : 0 < rows.length := by
      rw [← h.rowcnt]
      bv_omega
    rw [h.rows, h.rowcnt] at hpacked
    refine ⟨_, [bandCommand m w data], hok l₁ l₂ h₁ h₂, .padded hpos h.length_lt hpacked, rfl, ?_⟩
    exact ⟨by simp [answered, closed, sent], by simp [answered, closed, sent, accepted], rfl, rfl, rfl, hl₂⟩

end

/-- IBEGIN sends the line-feed command and opens a session with an empty band (R187). -/
theorem collecting_of_ibegin {s : State} {v : Variant} {w : U16} (hinv : s.inv = true) (hs : s.session = .idle)
    (hl : Link.allOk s.link = true) (hpos : 1 ≤ w.toNat) (hmax : w.toNat ≤ s.cfg.wmax.toNat) :
    ∃ t, exec (.ibegin (s.cfg.modeCode v) w) s = .next t ∧ Collecting (s.cfg.modeCode v) w v [] t ∧
      Progress s t [[0x1B#8, 0x33#8, 0x01#8]] 1 := by
  obtain ⟨-, -, -, -, hopens, -⟩ := ibeginOpensASession (s.cfg.modeCode v) w
  obtain ⟨l, haccepts, hl'⟩ := Link.accepts_of_allOk hl
  have hexec := hopens s v l hs hpos hmax rfl haccepts
  exact ⟨_, hexec, ⟨inv_of_exec hinv hexec, rfl, variantOf_modeCode (inv_cfg hinv) v, rfl⟩, .of_sent hl' rfl⟩

/-! ### The run of an image -/

theorem execAll_cons_of_next {i : Instr} {s t : State} (h : exec i s = .next t) (is : List Instr) :
    execAll (i :: is) s = execAll is t := by
  rw [execAll, h]

/-- The lines that bring the rest of an image's rows, run from `s` with `n` rows in the current band: after `j` of them
the bands that are full by then have been sent, and after IEND all of them and the Reset command. -/
structure PrintsRest (v : Variant) (n : Nat) (lines : List Instr) (s : State) (bands : List (List Byte)) : Prop where
  sentSoFar : ∀ j ≤ lines.length, ∃ t, execAll (lines.take j) s = .next t ∧
    t.out = s.out ++ (bands.take ((n + j) / rowlimit v)).flatten
  ends : ∃ t, execAll (lines ++ [.iend]) s = .next t ∧ t = closed t ∧
    Progress s t (bands ++ [[0x1B#8, 0x40#8]]) (lines.length + 1)

section

variable {v : Variant} {n : Nat} {i : Instr} {lines : List Instr} {s t : State} {bands : List (List Byte)}

/-- Before its first line nothing is sent, while the band is not full. -/
theorem sentSoFar_zero (hlt : n < rowlimit v) : ∃ t, execAll (lines.take 0) s = .next t ∧
    t.out = s.out ++ (bands.take ((n + 0) / rowlimit v)).flatten :=
  ⟨s, rfl, by simp [Nat.div_eq_of_lt hlt]⟩

theorem printsRest_nil (hlt : n < rowlimit v) (hexec : exec .iend s = .next t) (hclosed : t = closed t)
    (hprogress : Progress s t (bands ++ [[0x1B#8, 0x40#8]]) 1) : PrintsRest v n [] s bands := by
  refine ⟨fun j hj => ?_, t, (execAll_cons_of_next hexec []).trans rfl, hclosed, hprogress⟩
  obtain rfl : j = 0 := Nat.le_zero.mp hj
  exact sentSoFar_zero hlt

/-- A first line that sends the commands `full` comes before the rest, if the count of bands sent agrees. -/
theorem PrintsRest.cons {n' : Nat} {full : List (List Byte)} (h : PrintsRest v n' lines t bands) (hlt : n < rowlimit v)
    (hexec : exec i s = .next t) (hprogress : Progress s t full 1)
    (hcount : ∀ j, (n + (j + 1)) / rowlimit v = full.length + (n' + j) / rowlimit v) :
    PrintsRest v n (i :: lines) s (full ++ bands) := by
  refine ⟨fun j hj => ?_, ?_⟩
  · cases j with
    | zero => exact sentSoFar_zero hlt
    | succ j =>
      obtain ⟨u, hu, hout⟩ := h.sentSoFar j (Nat.le_of_succ_le_succ hj)
      refine ⟨u, (execAll_cons_of_next hexec _).trans hu, ?_⟩
      rw [hout, hprogress.out, hcount, List.take_length_add_append, List.flatten_append, List.append_assoc]
  · obtain ⟨u, hu, hclosed, hrest⟩ := h.ends
    refine ⟨u, (execAll_cons_of_next hexec _).trans hu, hclosed, ?_⟩
    have htotal := hprogress.trans hrest
    rwa [← List.append_assoc, Nat.add_comm] at htotal

end

/-- The rest of an image, from any row of it on: each line fills the band or leaves it unfilled, and IEND pads what is
left over (R189). -/
theorem Collecting.printsRest {m : Byte} {w : U16} {v : Variant} {lines : List Instr} {pending rows : List Row}
    {s : State} (h : Collecting m w v pending s) (hl : Link.allOk s.link = true)
    (hlines : lines.map rowOf = rows.map some) (hrows : ∀ row ∈ rows, row.length = w.toNat) :
    ∃ bands, ImageBands m w v (pending ++ rows) bands ∧ PrintsRest v pending.length lines s bands := by
  have hlt := h.length_lt
  induction lines generalizing pending rows s with
  | nil =>
    obtain rfl : rows = [] := List.map_eq_nil_iff.mp hlines.symm
    obtain ⟨t, bands, hexec, hbands, hclosed, hprogress⟩ := h.exec_iend hl
    exact ⟨bands, by rwa [List.append_nil], printsRest_nil hlt hexec hclosed hprogress⟩
  | cons i lines ih =>
    cases rows with
    | nil => cases hlines
    | cons row rows =>
      obtain ⟨hi, hlines'⟩ := List.cons.inj hlines
      obtain ⟨hlen, hrows'⟩ := List.forall_mem_cons.mp hrows
      by_cases hlast : pending.length + 1 = rowlimit v
      · obtain ⟨t, data, hexec, ht, hpacked, hprogress⟩ := h.exec_last_row hl hi hlen hlast
        obtain ⟨bands, hbands, hrest⟩ := ih ht hprogress.link hlines' hrows' ht.length_lt
        refine ⟨bandCommand m w data :: bands, ?_, hrest.cons hlt hexec hprogress fun j => ?_⟩
        · have hfull : (pending ++ [row]).length = rowlimit v := by rw [← hlast, List.length_append]; rfl
          have hcons := hbands.cons hfull hpacked
          rwa [List.nil_append, List.append_assoc] at hcons
        · rw [Nat.add_comm j 1, ← Nat.add_assoc, hlast, Nat.add_div_left _ (rowlimit_pos v), Nat.add_comm]
          simp
      · obtain ⟨t, hexec, ht, hprogress⟩ := h.exec_row hl hi hlen (by omega)
        obtain ⟨bands, hbands, hrest⟩ := ih ht hprogress.link hlines' hrows' ht.length_lt
        refine ⟨bands, by rwa [List.append_assoc] at hbands, hrest.cons hlt hexec hprogress fun j => ?_⟩
        rw [List.length_append, List.length_singleton, List.length_nil, Nat.zero_add, Nat.add_assoc, Nat.add_comm 1]

end Machine

namespace Claims

open Sys2Proof.Machine

/-- Settles O10: IBEGIN opens the session that the lines and IEND print the rest of the image from. -/
theorem wholeImageIsSentBandByBand : Obligations.WholeImageIsSentBandByBand := by
  intro s v w lines rows hinv hs hl hpos hmax hlines hrows
  obtain ⟨t, hexec, ht, hbegin⟩ := collecting_of_ibegin (v := v) hinv hs hl hpos hmax
  obtain ⟨bands, hbands, hsofar, u, hu, hclosed, hrest⟩ := ht.printsRest hbegin.link hlines hrows
  rw [List.nil_append] at hbands
  have htotal := hbegin.trans hrest
  have hout : u.out = s.out ++ [0x1B#8, 0x33#8, 0x01#8] ++ bands.flatten ++ [0x1B#8, 0x40#8] := by
    rw [htotal.out]
    simp
  refine ⟨bands, hbands.count, hbands.packed, fun j hj => ?_, u, (execAll_cons_of_next hexec _).trans hu, hout,
    htotal.log, ?_, ?_, ?_, ?_, ?_, htotal.cfg, htotal.input⟩
  · obtain ⟨u', hu', hout'⟩ := hsofar j hj
    refine ⟨u', (execAll_cons_of_next hexec _).trans hu', ?_⟩
    rw [hout', hbegin.out]
    simp
  · rw [hout, ← hbands.length_flatten]
    simp only [List.length_append, List.length_cons, List.length_nil]
  · rw [htotal.responses, Nat.add_comm 1]
  all_goals
    rw [hclosed]
    rfl

end Claims

end Sys2Proof

/-! How a host transaction fails (60_exceptions.md): what it answers out of sequence, and what a transport failure
leaves. -/

namespace Sys2Proof

namespace Machine

open Sys2Proof.Claims

/-! ### Out of sequence -/

/-- Outside a session the three transactions of an image session are out of sequence (R224). -/
theorem exec_of_idle {i : Instr} {s : State} (himage : imageOnly i = true) (hs : s.session = .idle) :
    exec i s = .next (answered s .sequenceError) := by
  cases i with
  | irowg _ | irowm _ => exact rowTransaction_of_idle hs
  | iend => exact execIend_of_idle hs
  | _ => cases himage

/-- In a session every other host transaction is out of sequence (R224). -/
theorem exec_of_image {i : Instr} {s : State} {m : Byte} {w : U16} (hport : i.port = .host)
    (himage : imageOnly i = false) (hs : s.session = .image m w) : exec i s = .next (answered s .sequenceError) := by
  cases i with
  | prst | cut | pcut | lfr _ | pmode _ | dbl _ | ul _ | bch _ | bcw _ | bctp _ | bcf _ => exact standalone_of_image hs
  | bcupc c => exact execBcupc_of_image hs
  | ibegin m' w' => exact execIbegin_of_image hs
  | irowg _ | irowm _ | iend => cases himage
  | _ => cases hport

/-! ### A failed `Emit` -/

section

variable {c : List Byte} {s u t : State}

/-- A failed `Emit` leaves the session alone; abandoning it is the raise's part (R45, R227). -/
theorem sameSession_of_emit_failed (h : emit c u = .failed t) : SameSession u t := by
  have hc := emit_cases c u
  rw [h] at hc
  cases hc <;> exact ⟨rfl, rfl, rfl⟩

/-- The failed interaction is the last in `LOG`, and `OUT` has the part of the command that was accepted (R45). -/
theorem histories_of_emit_failed (h : emit c u = .failed t) :
    (∃ k ≤ c.length, t.log = u.log ++ [.writeFail c k] ∧ t.out = u.out ++ c.take k) ∨
    (t.log = u.log ++ [.write c, .flushFail] ∧ t.out = u.out ++ c) := by
  have hc := emit_cases c u
  rw [h] at hc
  cases hc with
  | writeFailed k l => exact .inl ⟨min k c.length, min_le_right _ _, rfl, by simp⟩
  | flushFailed l => exact .inr ⟨rfl, rfl⟩

/-! ### Where a transaction can fail -/

/-- `u` is where a transaction started in `s` has come: it has not answered, its session is the one it started in, with
none open no RBC state has changed, and the histories have grown by accepted commands only. -/
structure Underway (s u : State) : Prop where
  session : u.session = s.session
  untouched : s.session = .idle → u.rowcnt = s.rowcnt ∧ u.band = s.band
  responses : u.responses = s.responses
  histories : ∃ earlier, u.log = s.log ++ accepted earlier ∧ u.out = s.out ++ earlier.flatten

theorem Underway.refl (s : State) : Underway s s := ⟨rfl, fun _ => ⟨rfl, rfl⟩, rfl, [], by simp [accepted]⟩

/-- An accepted command is one more of them (R45). -/
theorem Underway.sent (h : Underway s u) (bytes : List Byte) (l : Link) : Underway s (sent u bytes l) := by
  obtain ⟨earlier, hlog, hout⟩ := h.histories
  refine { h with histories := ⟨earlier ++ [bytes], ?_, ?_⟩ }
  · simp [Claims.sent, hlog, accepted]
  · simp [Claims.sent, hout]

/-- In a session the rows may change. -/
theorem Underway.of_image {m : Byte} {w : U16} (h : Underway s u) (hs : s.session = .image m w)
    (hsame : SameButSession u t) (hsession : t.session = u.session) : Underway s t := by
  rw [hsame]
  exact ⟨hsession.trans h.session, by simp [hs], h.responses, h.histories⟩

/-- If `o` answers TransportUnavailable, it was an `Emit` underway that failed, and the error was raised at once. -/
def FailsUnderway (s : State) (o : Result) : Prop :=
  ∀ t, o = .next t → t.responses = s.responses ++ [.transportUnavailable] →
    ∃ u c v, Underway s u ∧ emit c u = .failed v ∧ t = raise .transportUnavailable v

theorem fault_failsUnderway (f : Fault) : FailsUnderway s (.fault f) := nofun

theorem respond_failsUnderway {r : Response} (hr : r ≠ .transportUnavailable) (hu : u.responses = s.responses) :
    FailsUnderway s (.next (respond r u)) := by
  rintro _ ⟨⟩ hresp
  rw [respond_responses, hu] at hresp
  cases List.append_cancel_left hresp
  exact absurd rfl hr

/-- An error that the transaction finds itself is no transport failure (R225). -/
theorem raise_failsUnderway {r : Response} (hr : r ≠ .transportUnavailable) : FailsUnderway s (.next (raise r s)) := by
  rw [raise_of_ne hr]
  exact respond_failsUnderway hr rfl

/-- An `Emit` underway fails, or goes on underway, or a reset cuts it with no answer (R45, R251). -/
theorem emitThen_failsUnderway {k : State → Result} (hu : Underway s u)
    (hk : ∀ v, Underway s v → FailsUnderway s (k v)) : FailsUnderway s (emitThen c u k) := by
  intro t ht hresp
  unfold emitThen at ht
  have hc := emit_cases c u
  generalize he : emit c u = e at ht hc
  cases hc with
  | done l => exact hk _ (hu.sent c l) t ht hresp
  | writeFailed | flushFailed =>
    cases ht
    exact ⟨u, c, _, hu, he, rfl⟩
  | writeCut | flushCut =>
    cases ht
    exact absurd (hu.responses.symm.trans hresp) (by simp)
  | blocked => cases ht

theorem standalone_failsUnderway (bytes : List Byte) (s : State) : FailsUnderway s (standalone bytes s) := by
  unfold standalone
  split
  · exact raise_failsUnderway (by decide)
  · exact emitThen_failsUnderway (.refl s) fun _ hv => respond_failsUnderway (by decide) hv.responses

theorem bcupc_failsUnderway (c : List Byte) (s : State) : FailsUnderway s (execBcupc c s) := by
  unfold execBcupc
  split
  · exact raise_failsUnderway (by decide)
  · split
    · exact emitThen_failsUnderway (.refl s) fun _ hv => respond_failsUnderway (by decide) hv.responses
    · exact raise_failsUnderway (by decide)

theorem ibegin_failsUnderway (m : Byte) (w : U16) (s : State) : FailsUnderway s (execIbegin m w s) := by
  unfold execIbegin
  split
  · exact raise_failsUnderway (by decide)
  · split
    · exact raise_failsUnderway (by decide)
    · split
      · exact raise_failsUnderway (by decide)
      · exact emitThen_failsUnderway (.refl s) fun _ hv => respond_failsUnderway (by decide) hv.responses

section

variable {m : Byte} {w : U16} (hs : s.session = .image m w)
include hs

theorem bandComplete_failsUnderway {v : Variant} {k : State → Result} (hu : Underway s u)
    (hk : ∀ x, Underway s x → FailsUnderway s (k x)) : FailsUnderway s (bandComplete m w v u k) := by
  unfold bandComplete
  split
  · exact fault_failsUnderway _
  · exact emitThen_failsUnderway hu fun x hx => hk _ (hx.of_image hs rfl rfl)

theorem acceptRow_failsUnderway (row : Row) : FailsUnderway s (acceptRow m w row s) := by
  unfold acceptRow
  split
  · exact fault_failsUnderway _
  · split
    · dsimp only
      split
      · have hrow : Underway s (withRow s row) := (Underway.refl s).of_image hs rfl rfl
        exact bandComplete_failsUnderway hs hrow fun _ hx => respond_failsUnderway (by decide) hx.responses
      · exact respond_failsUnderway (by decide) rfl
    · exact fault_failsUnderway _

end

theorem rowTransaction_failsUnderway (row : Row) (s : State) : FailsUnderway s (rowTransaction row s) := by
  unfold rowTransaction
  split
  · exact raise_failsUnderway (by decide)
  · next hs =>
    split
    · exact acceptRow_failsUnderway hs row
    · exact raise_failsUnderway (by decide)

theorem closeImage_failsUnderway (hu : Underway s u) : FailsUnderway s (closeImage u) :=
  emitThen_failsUnderway hu fun _ hv => respond_failsUnderway (by decide) hv.responses

theorem iend_failsUnderway (s : State) : FailsUnderway s (execIend s) := by
  unfold execIend
  split
  · exact raise_failsUnderway (by decide)
  · next m w hs =>
    split
    · exact closeImage_failsUnderway (.refl s)
    · split
      · exact fault_failsUnderway _
      · next v _ =>
        split
        · have hpad : Underway s (padBand w v s) := (Underway.refl s).of_image hs rfl rfl
          exact bandComplete_failsUnderway hs hpad fun _ => closeImage_failsUnderway
        · exact fault_failsUnderway _

/-- Only a failed `Emit` makes a host transaction answer TransportUnavailable, and then it ends at once (R227). -/
theorem exec_failsUnderway {i : Instr} (hport : i.port = .host) (s : State) : FailsUnderway s (exec i s) := by
  cases i with
  | prst | cut | pcut | lfr _ | pmode _ | dbl _ | ul _ | bch _ | bcw _ | bctp _ | bcf _ =>
    exact standalone_failsUnderway _ s
  | bcupc c => exact bcupc_failsUnderway c s
  | ibegin m w => exact ibegin_failsUnderway m w s
  | irowg _ | irowm _ => exact rowTransaction_failsUnderway _ s
  | iend => exact iend_failsUnderway s
  | _ => cases hport

end

end Machine

namespace Claims

open Sys2Proof.Machine

/-- Settles O24: each of the sixteen checks the session first. -/
theorem outOfSequenceAnswersSequenceError : Obligations.OutOfSequenceAnswersSequenceError := by
  rintro i s hport (⟨himage, hs⟩ | ⟨himage, m, w, hs⟩)
  · exact exec_of_idle himage hs
  · exact exec_of_image hport himage hs

/-- Settles O26: the failed `Emit` leaves the session it was sent in, and the raise abandons that session. -/
theorem transportFailureEffects : Obligations.TransportFailureEffects := by
  intro i s t hport h hresp
  obtain ⟨u, c, v, hu, hfail, rfl⟩ := exec_failsUnderway hport s t h hresp
  obtain ⟨hsession, hrowcnt, hband⟩ := sameSession_of_emit_failed hfail
  obtain ⟨earlier, hlog, hout⟩ := hu.histories
  have hsv : v.session = s.session := hsession.trans hu.session
  refine ⟨raise_resp _ v, ?_, fun hs => ?_, fun ⟨m, w, hs⟩ => ?_, earlier, c, ?_⟩
  · rw [raise_transportUnavailable, respond_session, abandon_session]
  · obtain ⟨hrowcnt', hband'⟩ := hu.untouched hs
    rw [raise_transportUnavailable_of_idle (hsv.trans hs)]
    exact ⟨hrowcnt.trans hrowcnt', hband.trans hband'⟩
  · rw [raise_transportUnavailable_of_image (hsv.trans hs)]
    exact ⟨rfl, rfl⟩
  · rw [raise_log, raise_out, ← hlog, ← hout]
    exact histories_of_emit_failed hfail

/-- Settles O28: the seven responses have the codes 0 to 6. -/
theorem responseCodesAsTabled : Obligations.ResponseCodesAsTabled := by
  refine ⟨rfl, rfl, rfl, rfl, rfl, rfl, rfl, fun r => ?_⟩
  cases r <;> decide

end Claims

end Sys2Proof

/-! A reset during a transaction (70_reset_and_hazards.md section 1): where it can cut one, and that a host transaction
with no response was cut. -/

namespace Sys2Proof

namespace Machine

open Sys2Proof.Claims

/-! ### A reset at an `Emit` -/

/-- A reset during the write leaves a part of the command in `OUT` (R251, log 8). -/
theorem emitThen_of_write_reset (bytes : List Byte) {s : State} {n : Nat} {l : Link} (k : State → Result)
    (h : Link.next s.link = some (.reset n, l)) :
    emitThen bytes s k = .next (resetRbc { s with link := l, out := s.out ++ bytes.take n }) := by
  simp [emitThen, emit, h, afterEmit]

/-- A reset during the flush leaves all of it there, and the write in `LOG` (R251, log 8). -/
theorem emitThen_of_flush_reset (bytes : List Byte) {s : State} {n : Nat} {l₁ l : Link} (k : State → Result)
    (h1 : Link.next s.link = some (.ok, l₁)) (h2 : Link.next l₁ = some (.reset n, l)) :
    emitThen bytes s k
      = .next (resetRbc { s with link := l, out := s.out ++ bytes, log := s.log ++ [.write bytes] }) := by
  simp [emitThen, emit, flushLink, h1, h2, afterEmit]

/-! ### A reset among the commands of a meaning -/

/-- `t` is `s` after the transport accepted the commands `earlier` and a reset cut the next one, `c`, in its write or in
its flush (R251). -/
def CutIn (s : State) (earlier : List (List Byte)) (c : List Byte) (t : State) : Prop :=
  (∃ k l, t = atReset
    { s with link := l, out := s.out ++ earlier.flatten ++ c.take k, log := s.log ++ accepted earlier }) ∨
  (∃ l, t = atReset
    { s with link := l, out := s.out ++ earlier.flatten ++ c, log := s.log ++ accepted earlier ++ [.write c] })

section

variable {s t u : State} {bytes c : List Byte} {earlier : List (List Byte)}

/-- A reset puts the session's own elements at their reset values, whatever they were (R250). -/
theorem CutIn.of_sameButSession (h : CutIn t earlier c u) (hst : SameButSession s t) : CutIn s earlier c u := by
  rw [hst] at h
  exact h

/-- What is cut after one more command was accepted. -/
theorem CutIn.cons
    (h : CutIn { s with out := s.out ++ bytes, log := s.log ++ [.write bytes, .flush] } earlier c u) :
    CutIn s (bytes :: earlier) c u := by
  simpa [CutIn, accepted] using h

/-- How an `Emit` and what follows it can answer a next state: what follows ran, or the transport failed, or a reset cut
the command. -/
theorem emitThen_next_or_cut {k : State → Result} (h : emitThen bytes s k = .next t) :
    (∃ l, k { s with link := l, out := s.out ++ bytes, log := s.log ++ [.write bytes, .flush] } = .next t) ∨
    t.responses = s.responses ++ [.transportUnavailable] ∨ CutIn s [] bytes t := by
  obtain hk | ⟨n, l, rfl⟩ | ⟨l, rfl⟩ | ⟨n, l, rfl⟩ | ⟨l, rfl⟩ := emitThen_next h
  · exact .inl hk
  · exact .inr (.inl (raise_responses _ _))
  · exact .inr (.inl (raise_responses _ _))
  · exact .inr (.inr (.inl ⟨n, l, by simp [accepted, resetRbc, atReset]⟩))
  · exact .inr (.inr (.inr ⟨l, by simp [accepted, resetRbc, atReset]⟩))

/-- `t` is how a meaning started in `s` can end that sends `cmds` and ends as `u` where the transport accepts all of
them: it ends so, or the transport failed, or a reset cut one of the commands (R45, R251). -/
def EndsAmong (s u : State) (cmds : List (List Byte)) (t : State) : Prop :=
  t = { u with link := t.link } ∨ t.responses = s.responses ++ [.transportUnavailable] ∨
    ∃ earlier c later, cmds = earlier ++ c :: later ∧ CutIn s earlier c t

/-- What a meaning sends to a transport that accepts everything says how it can end with any transport. -/
theorem Talks.endsAmong {g : Link → Result} (h : Talks s g) :
    ∃ cmds u, g ⟨[], .ok⟩ = .next u ∧ u.log = s.log ++ accepted cmds ∧ u.out = s.out ++ cmds.flatten ∧
      ∀ l t, g l = .next t → EndsAmong s u cmds t := by
  induction h with
  | answer s t r h =>
    refine ⟨[], _, rfl, by rw [h]; simp [accepted], by rw [h]; simp, ?_⟩
    rintro l _ ⟨⟩
    exact .inl rfl
  | done s =>
    refine ⟨[], _, rfl, by simp [accepted], by simp, ?_⟩
    rintro l _ ⟨⟩
    exact .inl rfl
  | emit s t bytes k h _ ih =>
    obtain ⟨cmds, u, hu, hlog, hout, hends⟩ := ih
    have haccept : Link.Accepts ⟨[], .ok⟩ ⟨[], .ok⟩ := ⟨_, rfl, rfl⟩
    have hresp : t.responses = s.responses := by rw [h]
    refine ⟨bytes :: cmds, u, (emitThen_of_accepts bytes k haccept).trans hu, ?_, ?_, fun l x hx => ?_⟩
    · rw [hlog, h]
      simp [accepted]
    · rw [hout, h]
      simp
    · obtain ⟨l', hk⟩ | hfail | hcut := emitThen_next_or_cut hx
      · obtain hsame | hfail | ⟨earlier, c, later, hsplit, hcut⟩ := hends l' x hk
        · exact .inl hsame
        · exact .inr (.inl (hresp ▸ hfail))
        · exact .inr (.inr ⟨bytes :: earlier, c, later, by rw [hsplit, List.cons_append],
            hcut.cons.of_sameButSession h⟩)
      · exact .inr (.inl (hresp ▸ hfail))
      · exact .inr (.inr ⟨[], bytes, cmds, rfl, CutIn.of_sameButSession (t := t) hcut h⟩)

end

end Machine

namespace Claims

open Sys2Proof.Machine

/-- An instruction that goes on sends some commands, and ends among them. -/
theorem exec_endsAmong {i : Instr} {s t : State} (h : exec i s = .next t) :
    ∃ cmds u, Sends i s cmds ∧ exec i { s with link := ⟨[], .ok⟩ } = .next u ∧ EndsAmong s u cmds t := by
  obtain ⟨f, hstop⟩ | htalks := exec_talks i s
  · cases (hstop s.link).symm.trans h
  · obtain ⟨cmds, u, hu, hlog, hout, hends⟩ := htalks.endsAmong
    exact ⟨cmds, u, ⟨u, hu, hlog, hout⟩, hu, hends s.link t h⟩

/-- A host transaction that answers nothing was cut in a command it sends: where all its commands are accepted, it
answers (R62, R251). -/
theorem cutIn_of_no_response {i : Instr} {s t : State} (hhost : i.port = .host) (h : exec i s = .next t)
    (hresp : t.responses = s.responses) :
    Link.noReset s.link = false ∧
      ∃ earlier c later, Sends i s (earlier ++ c :: later) ∧ CutIn s earlier c t := by
  obtain ⟨r, -, hr⟩ | ⟨hreset, -, -⟩ := oneResponseUnlessReset i s t hhost h
  · simp [hresp] at hr
  obtain ⟨cmds, u, hsends, hu, hsame | hfail | ⟨earlier, c, later, rfl, hcut⟩⟩ := exec_endsAmong h
  · obtain ⟨r, -, hr⟩ | ⟨hreset', -, -⟩ := oneResponseUnlessReset i _ u hhost hu
    · rw [hsame] at hresp
      simp [hr] at hresp
    · cases hreset'
  · simp [hresp] at hfail
  · exact ⟨hreset, earlier, c, later, hsends, hcut⟩

/-- Settles O22: an instruction whose earlier commands were accepted is at the `Emit` that the reset cuts, and without
such a cut a host transaction answers. -/
theorem resetCutsATransaction : Obligations.ResetCutsATransaction := by
  refine ⟨fun s t r rest i hin hdec hexec => ?_, fun i s earlier later c k l₁ l hsends hl hwrite => ?_,
    fun i s earlier later c k l₁ l₂ l hsends hl hwrite hflush => ?_, fun i s t => cutIn_of_no_response⟩
  · have hrecord : takeTransaction r { s with input := rest } = .next t :=
      (takeTransaction_of_decode (s := { s with input := rest }) hdec).trans hexec
    exact (step_of_input hin).trans (congrArg (cutByReset { s with input := rest }) hrecord)
  all_goals obtain ⟨t, cont, hsame, hexec⟩ := hsends.reaches hl
  · rw [hexec, emitThen_of_write_reset c cont hwrite, hsame]
    rfl
  · rw [hexec, emitThen_of_flush_reset c cont hwrite hflush, hsame]
    rfl

end Claims

end Sys2Proof

/-! Written words (30_encoding.md, opcode_table.json): the words of the table and of the test vectors are encodings, and
the word placed as the next delivery is run. -/

namespace Sys2Proof

namespace Machine

/-- With nothing delivered, a step is the idle one (log 11). -/
theorem step_of_no_input {s : State} (h : s.input = []) : step s = idleStep s := by
  unfold step
  rw [h]

end Machine

namespace Claims

open Sys2Proof.Machine

/-- What is the encoding of a well-formed instruction is decoded as that (R60). -/
theorem decode_of_encode {cfg : Config} {i : Instr} {e : Encoded} (hcfg : cfg.wf = true)
    (hw : i.wellFormed cfg = true) (henc : encode cfg i = e) : decode cfg e = .ok i := by
  rw [← henc]
  exact (decodeEncodeRoundTrip cfg i hcfg hw).1

/-- Bytes that carry the record of a well-formed host transaction are decoded as that (R61, log 1). -/
theorem decodeWire_byteFraming_of_encode {cfg : Config} {i : Instr} {r : HostRecord} {bytes : List Byte}
    (hw : i.wellFormed cfg = true) (henc : encode cfg i = .transaction r) (hbytes : byteFraming.carry r = bytes) :
    decodeWire byteFraming bytes = .ok i := by
  have hread : byteFraming.read bytes = some r := hbytes ▸ recordOfBytes_carry (whole_of_encode hw henc)
  exact (decodeWire_of_read hread).trans (decodeHost_of_encode hw henc)

/-- A table word whose encoding decodes under the suggested parameters stands for that instruction (log 2, log 16). -/
theorem decodeTableWord_of_decode {nbits w : Nat} {i : Instr}
    (h : decode Config.suggested (tableEncoded nbits w) = .ok i) : decodeTableWord nbits w = some i := by
  unfold decodeTableWord
  rw [h]

/-- Settles O15: each word but the reserved one is the encoding of its instruction, so the round trip decodes it. -/
theorem writtenOutWordsDecode : Obligations.WrittenOutWordsDecode := by
  have hcfg : Config.suggested.wf = true := by decide
  have hreserved : Reserved 0x0D#8 := by
    unfold Reserved
    decide
  exact ⟨decode_of_encode hcfg rfl rfl, decode_of_encode hcfg rfl rfl, decode_of_encode hcfg rfl rfl,
    decodeWire_byteFraming_of_encode (cfg := Config.suggested) rfl rfl rfl,
    decodeWire_byteFraming_of_encode (cfg := Config.suggested) rfl rfl rfl,
    decodeHost_of_reserved (r := ⟨0x0D#8, []⟩) hreserved,
    decode_of_encode hcfg rfl rfl, decode_of_encode hcfg rfl rfl, decode_of_encode hcfg rfl rfl,
    decodeTableWord_of_decode (decode_of_encode hcfg rfl rfl)⟩

/-- Settles O19: the step is the idle one, which holds the state. -/
theorem idleStepHoldsTheState : Obligations.IdleStepHoldsTheState := fun _ => step_of_no_input

/-- Settles O20: the placed word is the delivery that O17's step takes, and what is left is the state as it was. -/
theorem fetchWordIsRunNext : Obligations.FetchWordIsRunNext := fun s nbits word i hdec =>
  stepRunsTheDecodedInstruction (s.withFetchWord nbits word) (tableEncoded nbits word) s.input i rfl hdec

end Claims

end Sys2Proof
